-- ==== Sys2Proof/Word.lean ====
section
/-!
DEFINITION. The data units of the engine: the byte, the 4-byte word (also a column of the cipher's
4×4 byte matrix) and the 16-byte block, with the one operation the spec has on all three, exclusive-or.
-/

namespace Sys2Proof

/-- R11: "A byte is 8 bits, an unsigned value 0..255". -/
abbrev Byte := BitVec 8

/-- R12: "A *word* is a sequence of 4 bytes", first byte first; it is never an integer. The same four
bytes are one column of the State (R110), where the field number is the row. -/
@[ext] structure Word where
  b0 : Byte
  b1 : Byte
  b2 : Byte
  b3 : Byte
  deriving DecidableEq, Repr

/-- R7, R110: the 16-byte unit, as "4 columns of 4 bytes"; block byte 4c + r is byte r of column c.
It is the type of a data block, of a round key, of an `iv` operand and of the chaining value. -/
@[ext] structure Block where
  c0 : Word
  c1 : Word
  c2 : Word
  c3 : Word
  deriving DecidableEq, Repr

/-- R13: `^` on two 4-byte sequences, element by element. -/
def Word.xor (x y : Word) : Word :=
  ⟨x.b0 ^^^ y.b0, x.b1 ^^^ y.b1, x.b2 ^^^ y.b2, x.b3 ^^^ y.b3⟩

/-- R13: `^` on two 16-byte sequences, element by element. -/
def Block.xor (x y : Block) : Block :=
  ⟨x.c0.xor y.c0, x.c1.xor y.c1, x.c2.xor y.c2, x.c3.xor y.c3⟩

end Sys2Proof
end

