-- ==== Sys2Proof/Config.lean ====
section
/-!
DEFINITION. The build-time parameters of an engine instance (spec file 00_scope.md, R5, R6, R8) and the
unconstrained values that stand where the spec says there is no value.
-/

namespace Sys2Proof

/-- R5: the key size, one of three, fixed when the engine is built. -/
inductive KeyLen where
  | k128
  | k192
  | k256
  deriving DecidableEq, Repr

/-- R10: the parameters of one build. They are constant for the life of an instance (R9); the model
holds them in its state so that one machine covers every build (log entry 1). -/
structure Build where
  /-- `KEYLEN` (R5). -/
  keyLen : KeyLen
  /-- `EN_ECB` (R6). -/
  enEcb : Bool
  /-- `EN_CBC` (R6). -/
  enCbc : Bool
  /-- `EN_CTR` (R6). -/
  enCtr : Bool
  /-- `BUF_SIZE`, the number of bytes of BUF (R8). -/
  bufSize : Nat
  deriving DecidableEq, Repr

/-- The build the model's reset state is given: KEYLEN = 128 with all three modes, the example of R190,
and the largest BUF that R8 allows. DESIGN CHOICE (log entry 1): the spec fixes no build. -/
def Config.resetBuild : Build := ⟨.k128, true, true, true, 2 ^ 32⟩

/-- R92, U9: RCON has no value at index 0 nor above 10. Unconstrained: nothing can be proved of it (log
entry 5). -/
opaque Config.rconOutside : Nat → Byte

/-- R25, R33: what stands where a byte sequence has no element (the keystream buffer before its first
block, an index past the end of a sequence). Unconstrained: nothing can be proved of it (log entry 5). -/
opaque Config.noByte : Nat → Byte

end Sys2Proof
end

