-- ==== Sys2Proof/Machine/Params.lean ====
section
/-!
DEFINITION. The constants the build parameters determine (R5, R6), the access to byte sequences (R12, R42)
and the counted loops of the spec's pseudocode (R14).
-/

namespace Sys2Proof

/-- R5: KEYBYTES, the key length in bytes. -/
def KeyLen.keyBytes : KeyLen → Nat
  | .k128 => 16
  | .k192 => 24
  | .k256 => 32

/-- R5: Nk, the key length in 4-byte words. -/
def KeyLen.nk : KeyLen → Nat
  | .k128 => 4
  | .k192 => 6
  | .k256 => 8

/-- R5: Nr, the number of rounds. -/
def KeyLen.nr : KeyLen → Nat
  | .k128 => 10
  | .k192 => 12
  | .k256 => 14

/-- R5: RKWORDS = Nb·(Nr+1) with Nb = 4. -/
def KeyLen.rkWords (kl : KeyLen) : Nat := 4 * (kl.nr + 1)

/-- R5: RKBYTES = Nb·(Nr+1)·4. -/
def KeyLen.rkBytes (kl : KeyLen) : Nat := kl.rkWords * 4

/-- R6: `EN_CHAIN` abbreviates `EN_CBC or EN_CTR`. -/
def Build.enChain (b : Build) : Bool := b.enCbc || b.enCtr

/-- R12: element `k` of a byte sequence, counted from 0. No rule reads past the end; there the value is
unconstrained. -/
def byteAt (x : List Byte) (k : Nat) : Byte := x.getD k (Config.noByte k)

/-- R42: the block whose byte `k` is `f k`; column c is bytes 4c to 4c+3. -/
def Block.ofFn (f : Nat → Byte) : Block :=
  ⟨⟨f 0, f 1, f 2, f 3⟩, ⟨f 4, f 5, f 6, f 7⟩, ⟨f 8, f 9, f 10, f 11⟩, ⟨f 12, f 13, f 14, f 15⟩⟩

/-- R12: the four bytes of a word, first byte first. -/
def Word.toList (w : Word) : List Byte := [w.b0, w.b1, w.b2, w.b3]

/-- R42: the sixteen bytes of a block in address order, column by column. -/
def Block.toList (b : Block) : List Byte :=
  b.c0.toList ++ b.c1.toList ++ b.c2.toList ++ b.c3.toList

/-- R42: block byte `k`. -/
def Block.byte (b : Block) (k : Nat) : Byte := byteAt b.toList k

/-- R101: word `i` of a byte sequence is its bytes 4i to 4i+3. -/
def wordAt (x : List Byte) (i : Nat) : Word :=
  ⟨byteAt x (4 * i), byteAt x (4 * i + 1), byteAt x (4 * i + 2), byteAt x (4 * i + 3)⟩

/-- R12: the 16 bytes of a byte sequence from offset `o`, as a block. -/
def blockAt (x : List Byte) (o : Nat) : Block := Block.ofFn fun k => byteAt x (o + k)

/-- R110: the byte of a column in row `r`. -/
def Word.row (w : Word) (r : Fin 4) : Byte :=
  match r with
  | 0 => w.b0
  | 1 => w.b1
  | 2 => w.b2
  | 3 => w.b3

/-- R110: column `c` of the State. -/
def Block.col (s : Block) (c : Fin 4) : Word :=
  match c with
  | 0 => s.c0
  | 1 => s.c1
  | 2 => s.c2
  | 3 => s.c3

/-- R110: "The byte in row r (0..3), column c (0..3) is `s[4c + r]`". -/
def Block.cell (s : Block) (c r : Fin 4) : Byte := (s.col c).row r

/-- R110: the State whose byte in column c, row r is `f c r`. -/
def Block.ofCells (f : Fin 4 → Fin 4 → Byte) : Block :=
  ⟨⟨f 0 0, f 0 1, f 0 2, f 0 3⟩, ⟨f 1 0, f 1 1, f 1 2, f 1 3⟩,
   ⟨f 2 0, f 2 1, f 2 2, f 2 3⟩, ⟨f 3 0, f 3 1, f 3 2, f 3 3⟩⟩

/-- A byte function applied to every byte of a block, whatever its position (R112, R121). -/
def Block.map (f : Byte → Byte) (s : Block) : Block := Block.ofCells fun c r => f (s.cell c r)

/-- R14: `for i = a .. a+n−1`, in increasing order; the body sees the index and the loop's state. -/
def forUp {σ : Type} (a : Nat) : Nat → (Nat → σ → σ) → σ → σ
  | 0, _, s => s
  | n + 1, body, s => body (a + n) (forUp a n body s)

/-- R14: `for i = a+n−1 down to a`, in decreasing order. -/
def forDown {σ : Type} (a : Nat) : Nat → (Nat → σ → σ) → σ → σ
  | 0, _, s => s
  | n + 1, body, s => forDown a n body (body (a + n) s)

end Sys2Proof
end

