-- ==== Sys2Proof/Syntax.lean ====
section
/-!
DEFINITION. The instruction set: the nine host commands of R63, one constructor per row of
spec/opcode_table.json, each with the operands of its format (R61).
-/

namespace Sys2Proof

/-- R63: the commands. `key` is a byte sequence (its length is checked in WellFormed.lean), `iv` is 16
bytes, `ptr` and `len` are 32-bit unsigned byte counts (R62). -/
inductive Instr where
  /-- INIT, opcode 0x01, format K (R130). -/
  | init (key : List Byte)
  /-- INIT_IV, opcode 0x02, format KV (R131). -/
  | initIv (key : List Byte) (iv : Block)
  /-- SET_IV, opcode 0x03, format V (R132). -/
  | setIv (iv : Block)
  /-- DESTROY, opcode 0x04, format N (R133). -/
  | destroy
  /-- ECB_ENC, opcode 0x10, format P (R140). -/
  | ecbEnc (ptr : BitVec 32)
  /-- ECB_DEC, opcode 0x11, format P (R141). -/
  | ecbDec (ptr : BitVec 32)
  /-- CBC_ENC, opcode 0x20, format PL (R150). -/
  | cbcEnc (ptr len : BitVec 32)
  /-- CBC_DEC, opcode 0x21, format PL (R151). -/
  | cbcDec (ptr len : BitVec 32)
  /-- CTR_XCRYPT, opcode 0x30, format PL (R160). -/
  | ctrXcrypt (ptr len : BitVec 32)
  deriving DecidableEq, Repr

end Sys2Proof
end

