-- ==== Sys2Proof/WellFormed.lean ====
section
/-!
DEFINITION. What is well formed: a build (R5, R6, R8) and an instruction of a build (R61, R100).
-/

namespace Sys2Proof

/-- R6: "At least one is true"; R8: "16 ≤ BUF_SIZE ≤ 2^32". -/
def Build.wf (b : Build) : Bool :=
  (b.enEcb || b.enCbc || b.enCtr) && decide (16 ≤ b.bufSize) && decide (b.bufSize ≤ 2 ^ 32)

/-- R61, R100: a key has exactly KEYBYTES bytes. The other operands have their width in their type, and
"All 256 values of every operand byte are legal" (R65). -/
def Instr.wf (kl : KeyLen) : Instr → Bool
  | .init key => key.length == kl.keyBytes
  | .initIv key _ => key.length == kl.keyBytes
  | .setIv _ => true
  | .destroy => true
  | .ecbEnc _ => true
  | .ecbDec _ => true
  | .cbcEnc _ _ => true
  | .cbcDec _ _ => true
  | .ctrXcrypt _ _ => true

end Sys2Proof
end

