-- ==== Sys2Proof/Decode.lean ====
section
/-!
DEFINITION. Command descriptors (spec file 30_encoding.md, R60 to R66): the decoder, total on any byte
string and rejecting by name, and the encoder written from the same tables.
-/

namespace Sys2Proof

/-- R61: the six descriptor formats. -/
inductive Format where
  | n
  | k
  | kv
  | v
  | p
  | pl
  deriving DecidableEq, Repr

/-- R61: the total length in bytes of a descriptor of the format. -/
def Format.bytes (kl : KeyLen) : Format → Nat
  | .n => 1
  | .k => 1 + kl.keyBytes
  | .kv => 17 + kl.keyBytes
  | .v => 17
  | .p => 5
  | .pl => 9

/-- Why a byte string is no command (R64); each of the three is "illegal" there. -/
inductive DecodeError where
  /-- The descriptor has no bytes. -/
  | empty
  /-- Byte 0 is none of the nine opcodes of R63. -/
  | unknownOpcode (op : Byte)
  /-- The descriptor's length is not that of its opcode's format. -/
  | wrongLength (op : Byte) (expected actual : Nat)
  deriving DecidableEq, Repr

/-- R63: the format of an opcode, all 8 bits matched; no other value is assigned (R65). -/
def formatOf (op : Byte) : Option Format :=
  if op = 0x01 then some .k
  else if op = 0x02 then some .kv
  else if op = 0x03 then some .v
  else if op = 0x04 then some .n
  else if op = 0x10 then some .p
  else if op = 0x11 then some .p
  else if op = 0x20 then some .pl
  else if op = 0x21 then some .pl
  else if op = 0x30 then some .pl
  else none

/-- R62: four descriptor bytes from offset `o`, most significant first. -/
def beWord (d : List Byte) (o : Nat) : BitVec 32 :=
  BitVec.ofNat 32 ((byteAt d o).toNat * 2 ^ 24 + (byteAt d (o + 1)).toNat * 2 ^ 16
    + (byteAt d (o + 2)).toNat * 2 ^ 8 + (byteAt d (o + 3)).toNat)

/-- R62: the `key` operand, `key[k] = d[1+k]`. -/
def keyOperand (kl : KeyLen) (d : List Byte) : List Byte := (d.drop 1).take kl.keyBytes

/-- R62, R63: the command of an opcode, its operands assembled from the descriptor. -/
def assemble (kl : KeyLen) (op : Byte) (d : List Byte) : Option Instr :=
  if op = 0x01 then some (.init (keyOperand kl d))
  else if op = 0x02 then some (.initIv (keyOperand kl d) (blockAt d (1 + kl.keyBytes)))
  else if op = 0x03 then some (.setIv (blockAt d 1))
  else if op = 0x04 then some .destroy
  else if op = 0x10 then some (.ecbEnc (beWord d 1))
  else if op = 0x11 then some (.ecbDec (beWord d 1))
  else if op = 0x20 then some (.cbcEnc (beWord d 1) (beWord d 5))
  else if op = 0x21 then some (.cbcDec (beWord d 1) (beWord d 5))
  else if op = 0x30 then some (.ctrXcrypt (beWord d 1) (beWord d 5))
  else none

/-- R64: `decode(d)`. A descriptor shorter or longer than its format is illegal. -/
def decode (kl : KeyLen) (d : List Byte) : Except DecodeError Instr :=
  match d with
  | [] => .error .empty
  | op :: _ =>
    match formatOf op, assemble kl op d with
    | some fmt, some i =>
      if d.length = fmt.bytes kl then .ok i
      else .error (.wrongLength op (fmt.bytes kl) d.length)
    | _, _ => .error (.unknownOpcode op)

/-- R63: the opcode byte. -/
def Instr.opcode : Instr → Byte
  | .init _ => 0x01
  | .initIv _ _ => 0x02
  | .setIv _ => 0x03
  | .destroy => 0x04
  | .ecbEnc _ => 0x10
  | .ecbDec _ => 0x11
  | .cbcEnc _ _ => 0x20
  | .cbcDec _ _ => 0x21
  | .ctrXcrypt _ _ => 0x30

/-- R63: the format a command is spelled in. -/
def Instr.format : Instr → Format
  | .init _ => .k
  | .initIv _ _ => .kv
  | .setIv _ => .v
  | .destroy => .n
  | .ecbEnc _ => .p
  | .ecbDec _ => .p
  | .cbcEnc _ _ => .pl
  | .cbcDec _ _ => .pl
  | .ctrXcrypt _ _ => .pl

/-- R62: the four descriptor bytes of a 32-bit operand, most significant first. -/
def beBytes (x : BitVec 32) : List Byte :=
  [BitVec.ofNat 8 (x.toNat / 2 ^ 24), BitVec.ofNat 8 (x.toNat / 2 ^ 16),
   BitVec.ofNat 8 (x.toNat / 2 ^ 8), BitVec.ofNat 8 x.toNat]

/-- R61: the operand bytes, in the fixed order `key`, `iv`, `ptr`, `len`. -/
def Instr.operandBytes : Instr → List Byte
  | .init key => key
  | .initIv key iv => key ++ iv.toList
  | .setIv iv => iv.toList
  | .destroy => []
  | .ecbEnc ptr => beBytes ptr
  | .ecbDec ptr => beBytes ptr
  | .cbcEnc ptr len => beBytes ptr ++ beBytes len
  | .cbcDec ptr len => beBytes ptr ++ beBytes len
  | .ctrXcrypt ptr len => beBytes ptr ++ beBytes len

/-- R61: the descriptor of a command, opcode first. -/
def encode (i : Instr) : List Byte := i.opcode :: i.operandBytes

/-- The descriptor that a word of spec/opcode_table.json's numbering stands for: byte j is bits 8j+7 to
8j; when its opcode's format is longer than the `nbits` bits given, the rest of the descriptor is zero bytes
(log entry 9). -/
def tableDescriptor (kl : KeyLen) (nbits w : Nat) : List Byte :=
  let given := (List.range ((nbits + 7) / 8)).map fun j => BitVec.ofNat 8 (w / 2 ^ (8 * j))
  match given with
  | [] => []
  | op :: _ =>
    match formatOf op with
    | some fmt => given ++ List.replicate (fmt.bytes kl - given.length) 0
    | none => given

/-- What the decoder reads from a word of the opcode table, in the build of the reset state. -/
def decodeTableWord (nbits w : Nat) : Option Instr :=
  match decode Config.resetBuild.keyLen (tableDescriptor Config.resetBuild.keyLen nbits w) with
  | .ok i => some i
  | .error _ => none

end Sys2Proof
end

