-- ==== Sys2Proof/Machine/Galois.lean ====
section
/-!
DEFINITION. The GaloisField unit (spec file 40_galois_field.md, R80 to R85): pure byte functions.
-/

namespace Sys2Proof.Machine

/-- R80: `double(b)`: shift left by one, the ninth bit dropped, and XOR 0x1B when the high bit of the
INPUT was set. -/
def double (b : Byte) : Byte :=
  if b &&& 0x80 ≠ 0 then (b <<< 1) ^^^ 0x1B else b <<< 1

/-- R81: `double` applied `k` times. -/
def doubled : Nat → Byte → Byte
  | 0, a => a
  | k + 1, a => double (doubled k a)

/-- R81: `multiply(a, c)`: for k = 0 .. 4, XOR in `double` applied k times when bit k of `c` is 1; bits
7 to 5 of `c` are ignored. -/
def multiply (a c : Byte) : Byte :=
  forUp 0 5 (fun k r => if c.getLsbD k then r ^^^ doubled k a else r) 0x00

/-- R83: multiplication by 03, `triple(a) = double(a) ^ a`. -/
def triple (a : Byte) : Byte := double a ^^^ a

end Sys2Proof.Machine
end

