-- ==== Sys2Proof/Machine/KeySchedule.lean ====
section
/-!
DEFINITION. The key scheduler (spec file 42_key_schedule.md, R100 to R109): the pure function `expand`.
-/

namespace Sys2Proof.Machine

/-- R104: "rotate `temp` left by one byte": the first byte moves to the last place. -/
def rotWord (t : Word) : Word := ⟨t.b1, t.b2, t.b3, t.b0⟩

/-- R105: "substitute each byte through the forward S-box". -/
def subWord (t : Word) : Word := ⟨sbox t.b0, sbox t.b1, sbox t.b2, sbox t.b3⟩

/-- R106: only the first byte of `temp` is changed, by `RCON[j]`. -/
def addRcon (t : Word) (j : Nat) : Word := { t with b0 := t.b0 ^^^ rcon j }

/-- R103, R107: what the loop makes of the previous word before it is XORed in: rotate, substitute and
add the round constant when `i mod Nk = 0`; substitute only when Nk = 8 and `i mod Nk = 4`; else nothing. -/
def scheduleTemp (nk i : Nat) (prev : Word) : Word :=
  if i % nk = 0 then addRcon (subWord (rotWord prev)) (i / nk)
  else if nk = 8 ∧ i % nk = 4 then subWord prev
  else prev

/-- R103: "new word at index i = (word at index i−Nk) XOR temp", from the words already written. -/
def scheduleWord (nk : Nat) (rk : List Byte) (i : Nat) : Word :=
  (wordAt rk (i - nk)).xor (scheduleTemp nk i (wordAt rk (i - 1)))

/-- R102, R103: the schedule starts as the key, and for i = Nk .. RKWORDS−1 word i is appended. -/
def expand (kl : KeyLen) (key : List Byte) : List Byte :=
  forUp kl.nk (kl.rkWords - kl.nk) (fun i rk => rk ++ (scheduleWord kl.nk rk i).toList) key

end Sys2Proof.Machine
end

