-- ==== Sys2Proof/Machine/Cipher.lean ====
section
/-!
DEFINITION. The forward round engine (spec file 43_cipher_forward.md, R110 to R116).
-/

namespace Sys2Proof.Machine

/-- R20: round key number `round` is the slice `RK[16·round .. 16·round+15]`. -/
def roundKey (rk : List Byte) (round : Nat) : Block := blockAt rk (16 * round)

/-- R111: XOR all 16 State bytes with round key `round`. -/
def addRoundKey (s : Block) (rk : List Byte) (round : Nat) : Block := s.xor (roundKey rk round)

/-- R112: every byte is replaced by its forward-S-box image. -/
def subBytes (s : Block) : Block := s.map sbox

/-- R113: `s'[4c + r] = s[4·((c + r) mod 4) + r]`: row r is rotated left by r (the sum in `Fin 4` is
modulo 4). -/
def shiftRows (s : Block) : Block := Block.ofCells fun c r => s.cell (c + r) r

/-- R114: one column of MixColumns, all four outputs from the four old bytes. -/
def mixColumn (a : Word) : Word :=
  ⟨double a.b0 ^^^ triple a.b1 ^^^ a.b2 ^^^ a.b3,
   a.b0 ^^^ double a.b1 ^^^ triple a.b2 ^^^ a.b3,
   a.b0 ^^^ a.b1 ^^^ double a.b2 ^^^ triple a.b3,
   triple a.b0 ^^^ a.b1 ^^^ a.b2 ^^^ double a.b3⟩

/-- R114: every column is mixed, independently. -/
def mixColumns (s : Block) : Block :=
  ⟨mixColumn s.c0, mixColumn s.c1, mixColumn s.c2, mixColumn s.c3⟩

/-- R115: the body of the round loop. -/
def cipherRound (rk : List Byte) (round : Nat) (s : Block) : Block :=
  addRoundKey (mixColumns (shiftRows (subBytes s))) rk round

/-- R115: `Cipher(block, rk)` with `nr` rounds; no MixColumns in the last. -/
def cipher (nr : Nat) (rk : List Byte) (block : Block) : Block :=
  addRoundKey (shiftRows (subBytes
    (forUp 1 (nr - 1) (cipherRound rk) (addRoundKey block rk 0)))) rk nr

end Sys2Proof.Machine
end

