-- ==== Sys2Proof/Machine/InvCipher.lean ====
section
/-!
DEFINITION. The inverse round engine (spec file 44_cipher_inverse.md, R120 to R124).
-/

namespace Sys2Proof.Machine

/-- R120: `s'[4c + r] = s[4·((c − r) mod 4) + r]`: row r is rotated right by r (the difference in
`Fin 4` is modulo 4). -/
def invShiftRows (s : Block) : Block := Block.ofCells fun c r => s.cell (c - r) r

/-- R121: every byte is replaced by its inverse-S-box image. -/
def invSubBytes (s : Block) : Block := s.map invSbox

/-- R122: one column of InvMixColumns, the circulant arrangement of 0E, 0B, 0D, 09. -/
def invMixColumn (a : Word) : Word :=
  ⟨multiply a.b0 0x0E ^^^ multiply a.b1 0x0B ^^^ multiply a.b2 0x0D ^^^ multiply a.b3 0x09,
   multiply a.b0 0x09 ^^^ multiply a.b1 0x0E ^^^ multiply a.b2 0x0B ^^^ multiply a.b3 0x0D,
   multiply a.b0 0x0D ^^^ multiply a.b1 0x09 ^^^ multiply a.b2 0x0E ^^^ multiply a.b3 0x0B,
   multiply a.b0 0x0B ^^^ multiply a.b1 0x0D ^^^ multiply a.b2 0x09 ^^^ multiply a.b3 0x0E⟩

/-- R122: every column, independently. -/
def invMixColumns (s : Block) : Block :=
  ⟨invMixColumn s.c0, invMixColumn s.c1, invMixColumn s.c2, invMixColumn s.c3⟩

/-- R123: the body of the loop; AddRoundKey comes BEFORE InvMixColumns. -/
def invCipherRound (rk : List Byte) (round : Nat) (s : Block) : Block :=
  invMixColumns (addRoundKey (invSubBytes (invShiftRows s)) rk round)

/-- R123: `InvCipher(block, rk)` with `nr` rounds, under the schedule `Cipher` uses; rounds nr−1 down
to 1, and no InvMixColumns in the last step. -/
def invCipher (nr : Nat) (rk : List Byte) (block : Block) : Block :=
  addRoundKey (invSubBytes (invShiftRows
    (forDown 1 (nr - 1) (invCipherRound rk) (addRoundKey block rk nr)))) rk 0

end Sys2Proof.Machine
end

