-- ==== Sys2Proof/Machine/State.lean ====
section
/-!
DEFINITION. The architectural state (spec file 10_state.md, R20 to R36), the ways a step can stop, and the
state after reset (R190).
-/

namespace Sys2Proof.Machine

/-- R22: the state of the per-context state machine. -/
inductive Phase where
  /-- 0: no key, no chaining value. -/
  | uninit
  /-- 1: RK written, CV unwritten. -/
  | keyexp
  /-- 2: RK and CV written. -/
  | chset
  /-- 3: RK and CV written, a CBC or CTR command has been accepted since. -/
  | stream
  deriving DecidableEq, Repr

/-- R171: the result codes of STATUS.ERR; codes 5 to 15 do not occur and are not representable (U17). -/
inductive ErrCode where
  /-- 0: the most recent command was accepted, or none was issued since reset. -/
  | ok
  /-- 1: the descriptor is not a command of this build. -/
  | illegalCmd
  /-- 2: the context lacks a key or a chaining value the command needs. -/
  | phase
  /-- 3: `len` is not a multiple of 16. -/
  | length
  /-- 4: the range does not fit in BUF. -/
  | bounds
  deriving DecidableEq, Repr

/-- BUF as a list of (address, byte) cells, addresses strictly rising, no cell equal to what an unlisted
address reads as (Machine/Ops.lean; log entry 4). -/
abbrev Memory := List Host.Cell

/-- R16: what the host can do to an engine instance. Reads of STATUS, CONFIG and BUF have no side effect
(R28, R48) and are the functions of Machine/Issue.lean, not actions. -/
inductive HostAction where
  /-- Present a descriptor, the exact byte string (R60). -/
  | command (d : List Byte)
  /-- Write one byte of BUF between commands (R31). -/
  | writeBuf (addr : Nat) (v : Byte)
  /-- Write a host-visible register; the write is ignored (R28, R29). -/
  | writeReg (n : Nat) (v : BitVec 32)
  /-- Reset (R190); how it is signalled belongs to `TRANSPORT`. -/
  | reset
  deriving DecidableEq, Repr

/-- The state of one engine instance. -/
structure State where
  /-- The build parameters, which CONFIG reports (R10, R29); no step changes them (R9). -/
  build : Build
  /-- PHASE (R22). -/
  phase : Phase
  /-- RK, the round-key schedule, RKBYTES bytes; `none` while unwritten (R20, R25; log
  entry 3). -/
  rk : Option (List Byte)
  /-- CV, the chaining value; `none` while unwritten, and always in a build without CBC and CTR (R21, R25;
  log entry 3). -/
  cv : Option Block
  /-- STATUS.ERR (R28). -/
  err : ErrCode
  /-- STATUS.STICKY (R28). -/
  sticky : Bool
  /-- BUF (R31). -/
  buf : Memory
  /-- What the host does next, in order: the model's own queue, standing for `TRANSPORT` (log entry 2). -/
  pending : List HostAction
  deriving DecidableEq, Repr

/-- Why a step stops for good. No command of an engine that meets `EngineInv` (Safety.lean) raises one: the
engine "never faults in any other way" than by a reject (R170). Log entries 7 and 13. -/
inductive Fault where
  /-- Raised by ECB_ENC, ECB_DEC, CBC_ENC, CBC_DEC and CTR_XCRYPT when the phase says a key is loaded and RK
  holds no value. R25: "no rule reads it while it is unwritten". Safe: no such state is reachable. -/
  | unwrittenSchedule
  /-- Raised by CBC_ENC, CBC_DEC and CTR_XCRYPT when the phase says a chaining value is set and CV holds no
  value (R25). Safe: no such state is reachable. -/
  | unwrittenChaining
  /-- Raised by a host write at an address BUF does not have (R31: addresses 0 to BUF_SIZE−1). Safe. -/
  | hostOutsideBuf (addr : Nat)
  /-- Raised by a host write to a register number other than 0 and 1 (R40: there are two registers). Safe. -/
  | hostNoRegister (n : Nat)
  deriving DecidableEq, Repr

/-- Why an instruction has no meaning. -/
inductive Refusal where
  /-- Raised by an arm of `exec` whose instruction has no meaning in the model; no arm does. Safe. -/
  | notModelled (mnemonic : String)
  deriving DecidableEq, Repr

/-- R190: the state after reset of an instance of build `b` whose BUF holds `buf` (R191: BUF is launch
state), the host having done nothing yet. -/
def State.launch (b : Build) (buf : Memory) : State where
  build := b
  phase := .uninit
  rk := none
  cv := none
  err := .ok
  sticky := false
  buf := buf
  pending := []

/-- R190: the machine right after reset, in the build of log entry 1, nothing listed in BUF (log entry 4). -/
def State.reset : State := State.launch Config.resetBuild []

end Sys2Proof.Machine
end

