-- ==== Sys2Proof/Machine/Ops.lean ====
section
/-!
DEFINITION. The operations over BUF (R41, R42), the named updates of the context (R130 to R133), taking a
reject (R172) and the acceptance procedure (R170, steps 2 to 5).
-/

namespace Sys2Proof.Machine

/-- What one step or one meaning answers. -/
abbrev Result := Host.Outcome State Fault Refusal

/-- What an address of BUF that no cell lists reads as. DESIGN CHOICE (log entry 4): the spec leaves BUF's
contents at power-up unspecified (R191). -/
def blankByte : Byte := 0

/-- The canonical form: addresses strictly rising from `lo` on, no cell equal to the blank byte. -/
def Memory.wfFrom (lo : Nat) : Memory → Bool
  | [] => true
  | (x, v) :: m => decide (lo ≤ x) && decide (v ≠ blankByte) && Memory.wfFrom (x + 1) m

/-- The canonical form of a memory. -/
def Memory.wf (m : Memory) : Bool := Memory.wfFrom 0 m

/-- Every listed address is below `n`. -/
def Memory.below (n : Nat) (m : Memory) : Bool := m.all fun c => decide (c.1 < n)

/-- R41: `BUF[a]`. -/
def Memory.read : Memory → Nat → Byte
  | [], _ => blankByte
  | (x, v) :: m, a => if x = a then v else Memory.read m a

/-- R41: `BUF[a] <- v`, keeping the canonical form. -/
def Memory.write : Memory → Nat → Byte → Memory
  | [], a, v => if v = blankByte then [] else [(a, v)]
  | (x, w) :: m, a, v =>
    if a < x then (if v = blankByte then (x, w) :: m else (a, v) :: (x, w) :: m)
    else if a = x then (if v = blankByte then m else (a, v) :: m)
    else (x, w) :: Memory.write m a v

/-- R41: `MemWrite(addr, n, v)` for the n bytes of `v`, `v[0]` at the lowest address, in address order. -/
def Memory.writeBytes (m : Memory) (a : Nat) : List Byte → Memory
  | [] => m
  | v :: vs => Memory.writeBytes (m.write a v) (a + 1) vs

/-- R41, R42: `MemRead(addr, 16)` as a block: block byte k is `BUF[addr+k]`. -/
def Memory.readBlock (m : Memory) (a : Nat) : Block := Block.ofFn fun k => m.read (a + k)

/-- R41, R42: `MemWrite(addr, 16, b)`. -/
def Memory.writeBlock (m : Memory) (a : Nat) (b : Block) : Memory := m.writeBytes a b.toList

/-- R174: the phases in which RK is written. -/
def Phase.hasKey (p : Phase) : Bool := p != .uninit

/-- R174: the phases in which CV is written. -/
def Phase.hasChain (p : Phase) : Bool := p == .chset || p == .stream

/-- R130: a new context from a key: RK written, CV made unwritten, PHASE = KEYEXP. -/
def State.loadKey (s : State) (rk : List Byte) : State :=
  { s with rk := some rk, cv := none, phase := .keyexp }

/-- R131, R132: CV is written from an `iv` operand and PHASE becomes CHSET. -/
def State.loadIv (s : State) (iv : Block) : State :=
  { s with cv := some iv, phase := .chset }

/-- R133, R190: RK and CV are made unwritten and PHASE becomes UNINIT. -/
def State.dispose (s : State) : State :=
  { s with rk := none, cv := none, phase := .uninit }

/-- BUF is replaced by what the accepted command leaves in it. -/
def State.setBuf (s : State) (m : Memory) : State := { s with buf := m }

/-- R150, R151, R160: an accepted CBC or CTR command leaves BUF, CV and PHASE = STREAM. -/
def State.streamed (s : State) (cv : Block) (m : Memory) : State :=
  { s with cv := some cv, buf := m, phase := .stream }

/-- STATUS.ERR is written. -/
def State.setErr (s : State) (e : ErrCode) : State := { s with err := e }

/-- R172, R180: what a reject does, the engine's one exception: `STATUS.ERR <- code`,
`STATUS.STICKY <- 1`, and nothing else. There is no return from it (R180): nothing is saved and nothing
is restored, and the engine is at once ready for the next command. -/
def takeReject (code : ErrCode) (s : State) : State := { s with err := code, sticky := true }

/-- R170, step 6: an accepted command ends with `STATUS.ERR <- 0`. -/
def acceptWith (s : State) : Result := .next (s.setErr .ok)

/-- The checks of R170 that are still open once a descriptor has been decoded; each is true when it passes. -/
structure Checks where
  /-- Step 2: the command exists in this build (R66, R173). -/
  inBuild : Bool
  /-- Step 3: the cell of the phase table is not "—" (R134, R174). -/
  phaseOk : Bool := true
  /-- Step 4: the length is a multiple of 16 where that is asked (R175). -/
  lengthOk : Bool := true
  /-- Step 5: the range is inside BUF (R176). -/
  boundsOk : Bool := true

/-- R170, R178: the code of the first check that fails. -/
def firstFailure (c : Checks) : Option ErrCode :=
  if c.inBuild = false then some .illegalCmd
  else if c.phaseOk = false then some .phase
  else if c.lengthOk = false then some .length
  else if c.boundsOk = false then some .bounds
  else none

/-- R170: a command that fails a check is rejected; one that passes them all runs. -/
def guarded (c : Checks) (s : State) (run : Result) : Result :=
  match firstFailure c with
  | some code => .next (takeReject code s)
  | none => run

/-- The command reads RK; R25: it is never read while unwritten. -/
def withSchedule (s : State) (run : List Byte → Result) : Result :=
  match s.rk with
  | some rk => run rk
  | none => .fault .unwrittenSchedule

/-- The command reads CV; R25: it is never read while unwritten. -/
def withChaining (s : State) (run : Block → Result) : Result :=
  match s.cv with
  | some cv => run cv
  | none => .fault .unwrittenChaining

end Sys2Proof.Machine
end

