-- ==== Sys2Proof/Machine/Operands.lean ====
section
/-!
DEFINITION. The operand forms of the commands (R45, R46, R61): the range of BUF a mode command touches, the
checks on it, and the length of a key.
-/

namespace Sys2Proof.Machine

/-- R45: a range `[start, start+size)` of BUF addresses, in the naturals. -/
structure Range where
  /-- The first address. -/
  start : Nat
  /-- The number of bytes. -/
  size : Nat
  deriving DecidableEq, Repr

/-- R45: the range of ECB_ENC and ECB_DEC, exactly 16 bytes. -/
def blockRange (ptr : BitVec 32) : Range := ⟨ptr.toNat, 16⟩

/-- R45: the range of CBC_ENC, CBC_DEC and CTR_XCRYPT. -/
def spanRange (ptr len : BitVec 32) : Range := ⟨ptr.toNat, len.toNat⟩

/-- R45, R176: the range fits in BUF; the sum does not wrap, and an empty range needs `ptr ≤ BUF_SIZE`. -/
def Range.fits (r : Range) (b : Build) : Bool := decide (r.start + r.size ≤ b.bufSize)

/-- An address lies in the range. -/
def Range.covers (r : Range) (a : Nat) : Bool := decide (r.start ≤ a) && decide (a < r.start + r.size)

/-- R46, R175: the length contract of CBC. -/
def wholeBlocks (len : BitVec 32) : Bool := decide (len.toNat % 16 = 0)

/-- R61, R173(c): the key has the length the build fixes; a key of another length cannot be spelled (log
entry 6). -/
def keyFits (b : Build) (key : List Byte) : Bool := decide (key.length = b.keyLen.keyBytes)

/-- R45: the only bytes of BUF a command may read or write; the context commands touch none. -/
def touchedRange : Instr → Range
  | .init _ => ⟨0, 0⟩
  | .initIv _ _ => ⟨0, 0⟩
  | .setIv _ => ⟨0, 0⟩
  | .destroy => ⟨0, 0⟩
  | .ecbEnc ptr => blockRange ptr
  | .ecbDec ptr => blockRange ptr
  | .cbcEnc ptr len => spanRange ptr len
  | .cbcDec ptr len => spanRange ptr len
  | .ctrXcrypt ptr len => spanRange ptr len

end Sys2Proof.Machine
end

