-- ==== Sys2Proof/Machine/Cbc.lean ====
section
/-!
DEFINITION. The CBC mode controller (spec file 47_mode_cbc.md, R150 to R152).
-/

namespace Sys2Proof.Machine

/-- What the block loop carries: CV and BUF. -/
structure CbcLoop where
  /-- The chaining value. -/
  cv : Block
  /-- BUF. -/
  mem : Memory
  deriving DecidableEq, Repr

/-- R150: the loop body of CBC_ENC for block `j`: XOR with CV, encrypt, store, and CV becomes the
ciphertext. -/
def cbcEncBlock (f : Block → Block) (p j : Nat) (t : CbcLoop) : CbcLoop :=
  let y := f ((t.mem.readBlock (p + 16 * j)).xor t.cv)
  ⟨y, t.mem.writeBlock (p + 16 * j) y⟩

/-- R151: the loop body of CBC_DEC for block `j`: `saved` is the ciphertext; the XOR uses CV from before
this block's update, and CV becomes `saved`. -/
def cbcDecBlock (g : Block → Block) (p j : Nat) (t : CbcLoop) : CbcLoop :=
  let saved := t.mem.readBlock (p + 16 * j)
  ⟨saved, t.mem.writeBlock (p + 16 * j) ((g saved).xor t.cv)⟩

/-- R150: `for j = 0 .. n − 1`. -/
def cbcEncLoop (f : Block → Block) (p n : Nat) (t : CbcLoop) : CbcLoop :=
  forUp 0 n (cbcEncBlock f p) t

/-- R151: `for j = 0 .. n − 1`. -/
def cbcDecLoop (g : Block → Block) (p n : Nat) (t : CbcLoop) : CbcLoop :=
  forUp 0 n (cbcDecBlock g p) t

/-- R150, R170: what a CBC command must pass. -/
def cbcChecks (ptr len : BitVec 32) (s : State) : Checks where
  inBuild := s.build.enCbc
  phaseOk := s.phase.hasChain
  lengthOk := wholeBlocks len
  boundsOk := (spanRange ptr len).fits s.build

/-- R150, R151: an accepted CBC command leaves the loop's BUF and CV, and PHASE = STREAM. -/
def cbcFinish (t : CbcLoop) (s : State) : Result := acceptWith (s.streamed t.cv t.mem)

/-- R150: `CBC_ENC ptr, len`. -/
def execCbcEnc (ptr len : BitVec 32) (s : State) : Result :=
  guarded (cbcChecks ptr len s) s <| withSchedule s fun rk => withChaining s fun cv =>
    cbcFinish (cbcEncLoop (cipher s.build.keyLen.nr rk) ptr.toNat (len.toNat / 16) ⟨cv, s.buf⟩) s

/-- R151: `CBC_DEC ptr, len`. -/
def execCbcDec (ptr len : BitVec 32) (s : State) : Result :=
  guarded (cbcChecks ptr len s) s <| withSchedule s fun rk => withChaining s fun cv =>
    cbcFinish (cbcDecLoop (invCipher s.build.keyLen.nr rk) ptr.toNat (len.toNat / 16) ⟨cv, s.buf⟩) s

end Sys2Proof.Machine
end

