-- ==== Sys2Proof/Machine/Context.lean ====
section
/-!
DEFINITION. The context commands (spec file 45_context_commands.md, R130 to R134). None touches BUF.
-/

namespace Sys2Proof.Machine

/-- R130: `INIT key`, accepted in every phase; RK is the expanded key, CV is made unwritten. -/
def execInit (key : List Byte) (s : State) : Result :=
  guarded { inBuild := keyFits s.build key } s
    (acceptWith (s.loadKey (expand s.build.keyLen key)))

/-- R131: `INIT_IV key, iv`, accepted in every phase of a build with a chaining mode. -/
def execInitIv (key : List Byte) (iv : Block) (s : State) : Result :=
  guarded { inBuild := keyFits s.build key && s.build.enChain } s
    (acceptWith ((s.loadKey (expand s.build.keyLen key)).loadIv iv))

/-- R132: `SET_IV iv`, which needs a key; RK is not touched. -/
def execSetIv (iv : Block) (s : State) : Result :=
  guarded { inBuild := s.build.enChain, phaseOk := s.phase.hasKey } s
    (acceptWith (s.loadIv iv))

/-- R133: `DESTROY`, accepted in every phase of every build; STICKY and BUF are not touched. -/
def execDestroy (s : State) : Result :=
  guarded { inBuild := true } s (acceptWith s.dispose)

end Sys2Proof.Machine
end

