-- ==== Sys2Proof/Machine/Ctr.lean ====
section
/-!
DEFINITION. The CTR mode controller (spec file 48_mode_ctr.md, R160 to R164).
-/

namespace Sys2Proof.Machine

/-- R161: the carry chain over the bytes of the counter, LAST byte first: 0xFF becomes 0x00 and carries
on, any other byte is incremented and ends it. -/
def incrementFromLast : List Byte → List Byte
  | [] => []
  | b :: bs => if b = 0xFF then 0x00 :: incrementFromLast bs else (b + 1) :: bs

/-- R161: `CtrInc(cv)`; the carry out of byte 0 is discarded. -/
def ctrInc (cv : Block) : Block := blockAt (incrementFromLast cv.toList.reverse).reverse 0

/-- What the byte loop carries: CV, the keystream buffer KS, the index `bi` (0..16) and BUF. KS and `bi`
are scratch of one command (R33, R162). -/
structure CtrLoop where
  /-- The counter. -/
  cv : Block
  /-- The keystream block. -/
  ks : Block
  /-- The next byte of the keystream to use; 16 when it is used up. -/
  bi : Nat
  /-- BUF. -/
  mem : Memory
  deriving DecidableEq, Repr

/-- R160: `if bi = 16`: encrypt the counter as it stands, then increment it, and start the block. -/
def ctrRefill (f : Block → Block) (t : CtrLoop) : CtrLoop :=
  if t.bi = 16 then { t with ks := f t.cv, cv := ctrInc t.cv, bi := 0 } else t

/-- R160: XOR the byte at `a` with `KS[bi]` and move `bi` on. -/
def ctrXorByte (a : Nat) (t : CtrLoop) : CtrLoop :=
  { t with mem := t.mem.write a (t.mem.read a ^^^ t.ks.byte t.bi), bi := t.bi + 1 }

/-- R160: the loop body for byte `i` of the range at `p`. -/
def ctrByte (f : Block → Block) (p i : Nat) (t : CtrLoop) : CtrLoop :=
  ctrXorByte (p + i) (ctrRefill f t)

/-- R160, R162: every command starts with `bi = 16` and a keystream buffer that holds no value. -/
def ctrStart (cv : Block) (m : Memory) : CtrLoop := ⟨cv, Block.ofFn Config.noByte, 16, m⟩

/-- R160: `for i = 0 .. n − 1`. -/
def ctrLoop (f : Block → Block) (p n : Nat) (t : CtrLoop) : CtrLoop := forUp 0 n (ctrByte f p) t

/-- R160, R170: what CTR_XCRYPT must pass; every length is legal. -/
def ctrChecks (ptr len : BitVec 32) (s : State) : Checks where
  inBuild := s.build.enCtr
  phaseOk := s.phase.hasChain
  boundsOk := (spanRange ptr len).fits s.build

/-- R160: an accepted command leaves the loop's BUF and CV, and PHASE = STREAM; KS and `bi` are gone. -/
def ctrFinish (t : CtrLoop) (s : State) : Result := acceptWith (s.streamed t.cv t.mem)

/-- R160: `CTR_XCRYPT ptr, len`, the same for both directions. -/
def execCtrXcrypt (ptr len : BitVec 32) (s : State) : Result :=
  guarded (ctrChecks ptr len s) s <| withSchedule s fun rk => withChaining s fun cv =>
    ctrFinish (ctrLoop (cipher s.build.keyLen.nr rk) ptr.toNat len.toNat (ctrStart cv s.buf)) s

end Sys2Proof.Machine
end

