-- ==== Sys2Proof/Machine/Ecb.lean ====
section
/-!
DEFINITION. The ECB mode controller (spec file 46_mode_ecb.md, R140 and R141).
-/

namespace Sys2Proof.Machine

/-- R47: read the 16 bytes at `p`, transform them, write them back. -/
def ecbBlock (f : Block → Block) (p : Nat) (m : Memory) : Memory :=
  m.writeBlock p (f (m.readBlock p))

/-- R140, R170: what an ECB command must pass. -/
def ecbChecks (ptr : BitVec 32) (s : State) : Checks where
  inBuild := s.build.enEcb
  phaseOk := s.phase.hasKey
  boundsOk := (blockRange ptr).fits s.build

/-- R140: `ECB_ENC ptr`. -/
def execEcbEnc (ptr : BitVec 32) (s : State) : Result :=
  guarded (ecbChecks ptr s) s <| withSchedule s fun rk =>
    acceptWith (s.setBuf (ecbBlock (cipher s.build.keyLen.nr rk) (blockRange ptr).start s.buf))

/-- R141: `ECB_DEC ptr`, with the same RK. -/
def execEcbDec (ptr : BitVec 32) (s : State) : Result :=
  guarded (ecbChecks ptr s) s <| withSchedule s fun rk =>
    acceptWith (s.setBuf (ecbBlock (invCipher s.build.keyLen.nr rk) (blockRange ptr).start s.buf))

end Sys2Proof.Machine
end

