-- ==== Sys2Proof/Machine/Dispatch.lean ====
section
/-!
DEFINITION. One arm per command: its meaning, which makes the checks of R170 from step 2 on and, when they
pass, executes the command.
-/

namespace Sys2Proof.Machine

def exec (i : Instr) (s : State) : Host.Outcome State Fault Refusal :=
  match i with
  | .init key => Sys2Proof.Machine.execInit key s
  | .initIv key iv => Sys2Proof.Machine.execInitIv key iv s
  | .setIv iv => Sys2Proof.Machine.execSetIv iv s
  | .destroy => Sys2Proof.Machine.execDestroy s
  | .ecbEnc ptr => Sys2Proof.Machine.execEcbEnc ptr s
  | .ecbDec ptr => Sys2Proof.Machine.execEcbDec ptr s
  | .cbcEnc ptr len => Sys2Proof.Machine.execCbcEnc ptr len s
  | .cbcDec ptr len => Sys2Proof.Machine.execCbcDec ptr len s
  | .ctrXcrypt ptr len => Sys2Proof.Machine.execCtrXcrypt ptr len s

end Sys2Proof.Machine
end

