-- ==== Sys2Proof/Machine/Flags.lean ====
section
/-!
DEFINITION. The flag-like state and the two host-visible registers (R28 to R30): the bits of STATUS and
CONFIG, assembled from the fields of the state. There are no arithmetic flags (R30).
-/

namespace Sys2Proof.Machine

/-- R22: the 2-bit encoding of PHASE. -/
def Phase.code : Phase → BitVec 2
  | .uninit => 0
  | .keyexp => 1
  | .chset => 2
  | .stream => 3

/-- R171: the 4-bit code of STATUS.ERR. -/
def ErrCode.code : ErrCode → BitVec 4
  | .ok => 0
  | .illegalCmd => 1
  | .phase => 2
  | .length => 3
  | .bounds => 4

/-- R29: KEYSEL. -/
def keySel : KeyLen → BitVec 2
  | .k128 => 0
  | .k192 => 1
  | .k256 => 2

/-- R28: register 0, STATUS: bits 31:8 read 0, ERR in 7:4, STICKY in 3, bit 2 reads 0, PHASE in 1:0. -/
def State.status (s : State) : BitVec 32 :=
  0#24 ++ s.err.code ++ BitVec.ofBool s.sticky ++ 0#1 ++ s.phase.code

/-- R29: register 1, CONFIG: bits 31:7 read 0, EN_CTR in 6, EN_CBC in 5, EN_ECB in 4, bits 3:2 read 0,
KEYSEL in 1:0. -/
def State.config (s : State) : BitVec 32 :=
  0#25 ++ BitVec.ofBool s.build.enCtr ++ BitVec.ofBool s.build.enCbc ++ BitVec.ofBool s.build.enEcb
    ++ 0#2 ++ keySel s.build.keyLen

end Sys2Proof.Machine
end

