-- ==== Sys2Proof/Machine/Issue.lean ====
section
/-!
DEFINITION. The host's side (log entries 7, 10 and 11; R16, R28, R29, R40, R60, R170, R190): issuing a descriptor, reading and writing
registers and BUF, reset, and the order in which the host's actions reach the engine.
-/

namespace Sys2Proof.Machine

/-- R170: `issue(d)`. Step 1 decodes; an illegal descriptor is rejected with ILLEGAL_CMD. -/
def issue (d : List Byte) (s : State) : Result :=
  match decode s.build.keyLen d with
  | .ok i => exec i s
  | .error _ => .next (takeReject .illegalCmd s)

/-- R40: the register space: number 0 is STATUS, number 1 is CONFIG, and there is no other. A read has no
side effect (R28). -/
def hostReadReg (n : Nat) (s : State) : Option (BitVec 32) :=
  match n with
  | 0 => some s.status
  | 1 => some s.config
  | _ => none

/-- R31, R40: a host read of BUF; an address BUF does not have has no byte. -/
def hostReadBuf (a : Nat) (s : State) : Option Byte :=
  if a < s.build.bufSize then some (s.buf.read a) else none

/-- R31: a host write of one byte of BUF. -/
def hostWriteBuf (a : Nat) (v : Byte) (s : State) : Result :=
  if a < s.build.bufSize then .next (s.setBuf (s.buf.write a v)) else .fault (.hostOutsideBuf a)

/-- R28, R29: "A host write to either is ignored." -/
def hostWriteReg (n : Nat) (_v : BitVec 32) (s : State) : Result :=
  if n < 2 then .next s else .fault (.hostNoRegister n)

/-- R190: reset: the context is disposed of, STATUS reads 0, BUF is unchanged; the build stays, and so does
what the host is about to do (log entry 8). -/
def applyReset (s : State) : State := { s.dispose with err := .ok, sticky := false }

/-- R51: one action of the host, whole. -/
def hostAct (a : HostAction) (s : State) : Result :=
  match a with
  | .command d => issue d s
  | .writeBuf addr v => hostWriteBuf addr v s
  | .writeReg n v => hostWriteReg n v s
  | .reset => .next (applyReset s)

/-- R16, R51: the next action of the host is taken from the queue and carried out; with none pending the
engine is idle and does nothing. -/
def takeAction (s : State) : Result :=
  match s.pending with
  | [] => .next s
  | a :: rest => hostAct a { s with pending := rest }

end Sys2Proof.Machine
end

