-- ==== Sys2Proof/Machine/Step.lean ====
section
/-!
DEFINITION. One step of the machine, and how the host's check presents one command to it.
-/

namespace Sys2Proof.Machine

/-- R51: one indivisible step is the host's next action, carried out whole; an idle engine stays as it is. -/
def step (s : State) : Host.Outcome State Fault Refusal := takeAction s

/-- The state in which the host is about to issue the command of an opcode-table word (numbered as the
table numbers its bits): its descriptor is the next pending action. -/
def State.withFetchWord (s : State) (nbits w : Nat) : State :=
  { s with pending := .command (tableDescriptor s.build.keyLen nbits w) :: s.pending }

end Sys2Proof.Machine
end

