-- ==== Sys2Proof/Machine/Assembler.lean ====
section
/-!
DEFINITION. The assembler notation (R68) and the pseudo-commands (R69). It is notation only (decision D21):
nothing in the machine reads it (log entry 15).
-/

namespace Sys2Proof.Machine

/-- R69: a line's command: one of the nine, or a pseudo-command. -/
inductive AsmCommand where
  | real (i : Instr)
  | ctrEnc (ptr len : BitVec 32)
  | ctrDec (ptr len : BitVec 32)
  | ecbEncN (ptr n : BitVec 32)
  | ecbDecN (ptr n : BitVec 32)
  | rekey (key : List Byte)
  deriving DecidableEq, Repr

/-- R69: `ptr`, `ptr+16`, …, `ptr+n−16`, for `n` a multiple of 16; `none` when `n` is not one or an address
is no number of R68 (0 .. 2^32−1). -/
def blockAddresses (ptr n : BitVec 32) : Option (List (BitVec 32)) :=
  if n.toNat % 16 = 0 ∧ (n.toNat = 0 ∨ ptr.toNat + n.toNat - 16 < 2 ^ 32) then
    some ((List.range (n.toNat / 16)).map fun j => BitVec.ofNat 32 (ptr.toNat + 16 * j))
  else none

/-- R69: what a line's command expands to. -/
def AsmCommand.expand : AsmCommand → Option (List Instr)
  | .real i => some [i]
  | .ctrEnc ptr len => some [.ctrXcrypt ptr len]
  | .ctrDec ptr len => some [.ctrXcrypt ptr len]
  | .ecbEncN ptr n => (blockAddresses ptr n).map fun as => as.map Instr.ecbEnc
  | .ecbDecN ptr n => (blockAddresses ptr n).map fun as => as.map Instr.ecbDec
  | .rekey key => some [.init key]

/-- R68: what a line of a program is. -/
inductive AsmLine where
  /-- Nothing but space or a comment. -/
  | blank
  /-- A `HOST: …` line, which is no command and has no encoding. -/
  | host
  /-- A command. -/
  | command (c : AsmCommand)
  /-- None of these. -/
  | bad
  deriving DecidableEq, Repr

/-- R68: a `;` starts a comment. -/
def uncomment (l : List Char) : List Char := l.takeWhile (· != ';')

/-- Spaces removed at both ends. -/
def trim (l : List Char) : List Char := ((l.dropWhile (· == ' ')).reverse.dropWhile (· == ' ')).reverse

/-- The pieces of a line between commas. -/
def splitComma : List Char → List (List Char)
  | [] => [[]]
  | c :: cs =>
    match splitComma cs with
    | [] => [[c]]
    | w :: ws => if c = ',' then [] :: w :: ws else (c :: w) :: ws

/-- The value of a hexadecimal digit. -/
def hexDigit (c : Char) : Option Nat :=
  let n := c.toNat
  if 48 ≤ n ∧ n ≤ 57 then some (n - 48)
  else if 97 ≤ n ∧ n ≤ 102 then some (n - 87)
  else if 65 ≤ n ∧ n ≤ 70 then some (n - 55)
  else none

/-- R11: two hexadecimal digits per byte, first byte first. -/
def hexBytes : List Char → Option (List Byte)
  | [] => some []
  | [_] => none
  | h :: l :: rest =>
    match hexDigit h, hexDigit l, hexBytes rest with
    | some x, some y, some bs => some (BitVec.ofNat 8 (16 * x + y) :: bs)
    | _, _, _ => none

/-- The value of a digit string in a base, from the value of the digits before it. -/
def digits (base : Nat) : Nat → List Char → Option Nat
  | acc, [] => some acc
  | acc, c :: cs =>
    match hexDigit c with
    | some d => if d < base then digits base (acc * base + d) cs else none
    | none => none

/-- R68: a decimal number, or a hexadecimal one with a `0x` prefix, in 0 .. 2^32−1. -/
def asmNumber (l : List Char) : Option (BitVec 32) :=
  let value := match l with
    | '0' :: 'x' :: d :: ds => digits 16 0 (d :: ds)
    | d :: ds => digits 10 0 (d :: ds)
    | [] => none
  match value with
  | some n => if n < 2 ^ 32 then some (BitVec.ofNat 32 n) else none
  | none => none

/-- The value of an operand written `name=value`. -/
def operandValue (name : List Char) (l : List Char) : Option (List Char) :=
  let l := trim l
  if l.take (name.length + 1) = name ++ ['='] then some (trim (l.drop (name.length + 1))) else none

/-- A `key=` operand: KEYBYTES bytes. -/
def asmKey (kl : KeyLen) (l : List Char) : Option (List Byte) :=
  match (operandValue ['k', 'e', 'y'] l).bind hexBytes with
  | some k => if k.length = kl.keyBytes then some k else none
  | none => none

/-- An `iv=` operand: 16 bytes. -/
def asmIv (l : List Char) : Option Block :=
  match (operandValue ['i', 'v'] l).bind hexBytes with
  | some v => if v.length = 16 then some (blockAt v 0) else none
  | none => none

/-- A numeric operand of the given name. -/
def asmNum (name : List Char) (l : List Char) : Option (BitVec 32) :=
  (operandValue name l).bind asmNumber

/-- R68, R69: the command of a mnemonic with its operand texts. -/
def asmCommand (kl : KeyLen) (mnemonic : List Char) (ops : List (List Char)) : Option AsmCommand :=
  let ptr := ['p', 't', 'r']
  let key1 (f : List Byte → AsmCommand) := match ops with
    | [k] => (asmKey kl k).map f
    | _ => none
  let ptr1 (f : BitVec 32 → AsmCommand) := match ops with
    | [p] => (asmNum ptr p).map f
    | _ => none
  let ptr2 (name : List Char) (f : BitVec 32 → BitVec 32 → AsmCommand) := match ops with
    | [p, l] => (asmNum ptr p).bind fun x => (asmNum name l).map fun y => f x y
    | _ => none
  if mnemonic = "INIT".toList then key1 fun k => .real (.init k)
  else if mnemonic = "INIT_IV".toList then
    (match ops with
      | [k, v] => (asmKey kl k).bind fun x => (asmIv v).map fun y => .real (.initIv x y)
      | _ => none)
  else if mnemonic = "SET_IV".toList then
    (match ops with
      | [v] => (asmIv v).map fun y => .real (.setIv y)
      | _ => none)
  else if mnemonic = "DESTROY".toList then
    (match ops with
      | [[]] => some (.real .destroy)
      | _ => none)
  else if mnemonic = "ECB_ENC".toList then ptr1 fun p => .real (.ecbEnc p)
  else if mnemonic = "ECB_DEC".toList then ptr1 fun p => .real (.ecbDec p)
  else if mnemonic = "CBC_ENC".toList then ptr2 "len".toList fun p l => .real (.cbcEnc p l)
  else if mnemonic = "CBC_DEC".toList then ptr2 "len".toList fun p l => .real (.cbcDec p l)
  else if mnemonic = "CTR_XCRYPT".toList then ptr2 "len".toList fun p l => .real (.ctrXcrypt p l)
  else if mnemonic = "CTR_ENC".toList then ptr2 "len".toList fun p l => .ctrEnc p l
  else if mnemonic = "CTR_DEC".toList then ptr2 "len".toList fun p l => .ctrDec p l
  else if mnemonic = "ECB_ENC_N".toList then ptr2 ['n'] fun p n => .ecbEncN p n
  else if mnemonic = "ECB_DEC_N".toList then ptr2 ['n'] fun p n => .ecbDecN p n
  else if mnemonic = "REKEY".toList then key1 fun k => .rekey k
  else none

/-- R68: one line of a program: "one command per line". -/
def asmLine (kl : KeyLen) (line : List Char) : AsmLine :=
  let l := trim (uncomment line)
  if l = [] then .blank
  else if l.take 5 = "HOST:".toList then .host
  else
    match asmCommand kl (l.takeWhile (· != ' ')) (splitComma (trim (l.dropWhile (· != ' ')))) with
    | some c => .command c
    | none => .bad

end Sys2Proof.Machine
end

