-- ==== Sys2Proof/Safety.lean ====
section
/-!
DEFINITION. The terms claims use: the invariant of an engine instance, and the spec's tables written again
as tables, independently of the decoder and of the meanings, for statements to hold the machine against.
-/

namespace Sys2Proof.Machine

/-- What holds of every reachable state of an engine instance. -/
structure EngineInv (s : State) : Prop where
  /-- R6, R8: the build is one the spec allows. -/
  build_wf : s.build.wf = true
  /-- R22: RK is written exactly in the phases KEYEXP, CHSET and STREAM. -/
  rk_written : s.rk.isSome = s.phase.hasKey
  /-- R22: CV is written exactly in the phases CHSET and STREAM. -/
  cv_written : s.cv.isSome = s.phase.hasChain
  /-- R20, R100: what RK holds is the expansion of a key of KEYBYTES bytes. -/
  rk_expanded : ∀ rk, s.rk = some rk →
    ∃ key : List Byte, key.length = s.build.keyLen.keyBytes ∧ rk = expand s.build.keyLen key
  /-- R22: "When `EN_CHAIN` is false the values 2 and 3 are never reached." -/
  chain_built : s.phase.hasChain = true → s.build.enChain = true
  /-- R28: STICKY is 1 once any command has been rejected since reset. -/
  reject_sticks : s.err ≠ .ok → s.sticky = true
  /-- BUF is in canonical form. -/
  buf_wf : s.buf.wf = true
  /-- R31: BUF has the addresses 0 to BUF_SIZE−1 only. -/
  buf_below : s.buf.below s.build.bufSize = true

/-- One row of the opcode map of R63. -/
structure CommandRow where
  /-- The opcode, descriptor byte 0. -/
  op : Byte
  /-- The total length of its format in bytes (R61). -/
  bytes : Nat
  /-- The column "exists when". -/
  existsWhen : Bool
  deriving DecidableEq, Repr

/-- R61, R63: the nine commands of a build; 16, 24 or 32 are KEYBYTES. -/
def commandRows (b : Build) : List CommandRow :=
  let keyBytes := match b.keyLen with
    | .k128 => 16
    | .k192 => 24
    | .k256 => 32
  [⟨0x01, 1 + keyBytes, true⟩,
   ⟨0x02, 1 + keyBytes + 16, b.enCbc || b.enCtr⟩,
   ⟨0x03, 17, b.enCbc || b.enCtr⟩,
   ⟨0x04, 1, true⟩,
   ⟨0x10, 5, b.enEcb⟩,
   ⟨0x11, 5, b.enEcb⟩,
   ⟨0x20, 9, b.enCbc⟩,
   ⟨0x21, 9, b.enCbc⟩,
   ⟨0x30, 9, b.enCtr⟩]

/-- R64, R66: the descriptor spells a command of the build: its first byte is the opcode of a row that
exists, and its length is that row's. -/
def spellsCommand (b : Build) (d : List Byte) : Prop :=
  ∃ row ∈ commandRows b, d.head? = some row.op ∧ d.length = row.bytes ∧ row.existsWhen = true

/-- R66, R173(c) and (d): the instruction is a command of the build. -/
def existsIn (b : Build) : Instr → Prop
  | .init key => key.length = b.keyLen.keyBytes
  | .initIv key _ => key.length = b.keyLen.keyBytes ∧ (b.enCbc = true ∨ b.enCtr = true)
  | .setIv _ => b.enCbc = true ∨ b.enCtr = true
  | .destroy => True
  | .ecbEnc _ => b.enEcb = true
  | .ecbDec _ => b.enEcb = true
  | .cbcEnc _ _ => b.enCbc = true
  | .cbcDec _ _ => b.enCbc = true
  | .ctrXcrypt _ _ => b.enCtr = true

/-- R134: the phase table; `none` is a "—" cell. -/
def phaseTable (i : Instr) (p : Phase) : Option Phase :=
  match i, p with
  | .init _, _ => some .keyexp
  | .initIv _ _, _ => some .chset
  | .setIv _, .uninit => none
  | .setIv _, _ => some .chset
  | .destroy, _ => some .uninit
  | .ecbEnc _, .uninit => none
  | .ecbEnc _, p => some p
  | .ecbDec _, .uninit => none
  | .ecbDec _, p => some p
  | .cbcEnc _ _, .uninit => none
  | .cbcEnc _ _, .keyexp => none
  | .cbcEnc _ _, _ => some .stream
  | .cbcDec _ _, .uninit => none
  | .cbcDec _ _, .keyexp => none
  | .cbcDec _ _, _ => some .stream
  | .ctrXcrypt _ _, .uninit => none
  | .ctrXcrypt _ _, .keyexp => none
  | .ctrXcrypt _ _, _ => some .stream

/-- R175: a CBC command whose length is not a multiple of 16. -/
def raggedCbc : Instr → Prop
  | .init _ => False
  | .initIv _ _ => False
  | .setIv _ => False
  | .destroy => False
  | .ecbEnc _ => False
  | .ecbDec _ => False
  | .cbcEnc _ len => len.toNat % 16 ≠ 0
  | .cbcDec _ len => len.toNat % 16 ≠ 0
  | .ctrXcrypt _ _ => False

/-- R176: a mode command whose range is not inside BUF, the sum in the naturals. -/
def outsideBuf (b : Build) : Instr → Prop
  | .init _ => False
  | .initIv _ _ => False
  | .setIv _ => False
  | .destroy => False
  | .ecbEnc ptr => b.bufSize < ptr.toNat + 16
  | .ecbDec ptr => b.bufSize < ptr.toNat + 16
  | .cbcEnc ptr len => b.bufSize < ptr.toNat + len.toNat
  | .cbcDec ptr len => b.bufSize < ptr.toNat + len.toNat
  | .ctrXcrypt ptr len => b.bufSize < ptr.toNat + len.toNat

/-- R161: `val(cv) = Σ cv[k]·256^(15−k)`, the counter as a big-endian integer. -/
def counterValue (cv : Block) : Nat := cv.toList.foldl (fun n b => n * 256 + b.toNat) 0

/-- R45: the bytes of BUF outside a range read the same in two memories. -/
def sameOutside (r : Range) (m m' : Memory) : Prop :=
  ∀ a, r.covers a = false → m'.read a = m.read a

end Sys2Proof.Machine
end

