-- ==== Sys2Proof/Certificates/Slice0/Obligations.lean ====
section
/-!
DEFINITION. The statements for the provers, in the order of the spec's files: the pure units, the encoding,
the acceptance procedure, each command's result, the frames, the invariant and the host's side.
-/

open Sys2Proof Sys2Proof.Machine

/-! ### The pure units: GaloisField, tables, key scheduler, round engines -/

/-- R80: `double` is multiplication by x modulo x^8+x^4+x^3+x+1 on the byte read as a number, and it is a
bijection on bytes. -/
def Obligations.DoubleMultipliesByX : Prop :=
  (∀ b : Byte, (double b).toNat =
    if b.toNat < 128 then 2 * b.toNat else (2 * b.toNat - 256) ^^^ 0x1B) ∧
  Function.Bijective double

/-- R82: addition is exclusive-or, its own inverse, and `double` and `multiply` distribute over it. -/
def Obligations.FieldOperationsDistributeOverXor : Prop :=
  ∀ a b c : Byte, a ^^^ a = 0x00 ∧ a ^^^ 0x00 = a ∧
    double (a ^^^ b) = double a ^^^ double b ∧
    multiply (a ^^^ b) c = multiply a c ^^^ multiply b c

/-- R81: `multiply` is the XOR of the doublings of `a` that the constant's low five bits select, and bits 7
to 5 of the constant are ignored. -/
def Obligations.MultiplySelectsFiveDoublings : Prop :=
  ∀ a c : Byte,
    multiply a c =
      (if c.getLsbD 0 then a else 0) ^^^ (if c.getLsbD 1 then double a else 0) ^^^
      (if c.getLsbD 2 then double (double a) else 0) ^^^
      (if c.getLsbD 3 then double (double (double a)) else 0) ^^^
      (if c.getLsbD 4 then double (double (double (double a))) else 0) ∧
    multiply a c = multiply a (c &&& 0x1F)

/-- R91: "`InvSBox[SBox[v]] == v` for all byte values v, and vice versa". -/
def Obligations.SboxesAreInverse : Prop :=
  ∀ v : Byte, invSbox (sbox v) = v ∧ sbox (invSbox v) = v

/-- R92: the ten round constants, each the double of the one before. -/
def Obligations.RoundConstantsDouble : Prop :=
  rcon 1 = 0x01 ∧ (∀ j, 1 ≤ j → j ≤ 9 → rcon (j + 1) = double (rcon j)) ∧
  rcon 8 = 0x80 ∧ rcon 9 = 0x1B ∧ rcon 10 = 0x36

/-- R100, R102, R103: the schedule of a key of KEYBYTES bytes has RKBYTES bytes, begins with the key, and
word i is word i−Nk XOR the previous word, transformed as the three cases say. -/
def Obligations.ExpandFollowsTheWordRecurrence : Prop :=
  ∀ (kl : KeyLen) (key : List Byte), key.length = kl.keyBytes →
    (expand kl key).length = kl.rkBytes ∧
    (∀ k, k < kl.keyBytes → byteAt (expand kl key) k = byteAt key k) ∧
    (∀ i, kl.nk ≤ i → i < kl.rkWords →
      let prev := wordAt (expand kl key) (i - 1)
      let temp : Word :=
        if i % kl.nk = 0 then ⟨sbox prev.b1 ^^^ rcon (i / kl.nk), sbox prev.b2, sbox prev.b3, sbox prev.b0⟩
        else if kl = .k256 ∧ i % 8 = 4 then ⟨sbox prev.b0, sbox prev.b1, sbox prev.b2, sbox prev.b3⟩
        else prev
      wordAt (expand kl key) i = (wordAt (expand kl key) (i - kl.nk)).xor temp)

/-- R108: different keys always give different schedules. -/
def Obligations.DifferentKeysGiveDifferentSchedules : Prop :=
  ∀ (kl : KeyLen) (key key' : List Byte), key.length = kl.keyBytes → key'.length = kl.keyBytes →
    expand kl key = expand kl key' → key = key'

/-- R113, R120: ShiftRows and InvShiftRows are the permutations of the two index tables, `s'[k] = s[P[k]]`
and `s'[k] = s[Q[k]]`. -/
def Obligations.ShiftRowsFollowTheIndexTables : Prop :=
  ∀ (s : Block) (k : Nat), k < 16 →
    (shiftRows s).byte k = s.byte ([0, 5, 10, 15, 4, 9, 14, 3, 8, 13, 2, 7, 12, 1, 6, 11].getD k 0) ∧
    (invShiftRows s).byte k = s.byte ([0, 13, 10, 7, 4, 1, 14, 11, 8, 5, 2, 15, 12, 9, 6, 3].getD k 0)

/-- R120, R121, R122: each inverse transform undoes its forward one, and is undone by it. -/
def Obligations.RoundTransformsAreUndone : Prop :=
  ∀ s : Block,
    invShiftRows (shiftRows s) = s ∧ shiftRows (invShiftRows s) = s ∧
    invSubBytes (subBytes s) = s ∧ subBytes (invSubBytes s) = s ∧
    invMixColumns (mixColumns s) = s ∧ mixColumns (invMixColumns s) = s

/-- R114, R122: MixColumns and InvMixColumns are linear over XOR, and both leave a State whose every column
is four equal bytes as it is. -/
def Obligations.MixingIsLinearAndFixesEqualColumns : Prop :=
  (∀ s t : Block, mixColumns (s.xor t) = (mixColumns s).xor (mixColumns t) ∧
    invMixColumns (s.xor t) = (invMixColumns s).xor (invMixColumns t)) ∧
  (∀ v : Fin 4 → Byte, mixColumns (Block.ofCells fun c _ => v c) = Block.ofCells (fun c _ => v c) ∧
    invMixColumns (Block.ofCells fun c _ => v c) = Block.ofCells fun c _ => v c)

/-- R124: for every byte sequence of RKBYTES bytes and every block, InvCipher undoes Cipher and Cipher
undoes InvCipher. -/
def Obligations.InvCipherInvertsCipher : Prop :=
  ∀ (kl : KeyLen) (rk : List Byte) (b : Block), rk.length = kl.rkBytes →
    invCipher kl.nr rk (cipher kl.nr rk b) = b ∧ cipher kl.nr rk (invCipher kl.nr rk b) = b

/-! ### Encoding -/

/-- R61 to R64: decoding the descriptor of a well-formed command gives the command, every operand at every
value. -/
def Obligations.DecodeOfEncodeIsTheCommand : Prop :=
  ∀ (kl : KeyLen) (i : Instr), i.wf kl = true → decode kl (encode i) = .ok i

/-- R64: a byte string that decodes is the descriptor of what it decodes to, which is well formed: no two
descriptors spell one command, and nothing of a descriptor is ignored. -/
def Obligations.EncodeOfDecodeIsTheDescriptor : Prop :=
  ∀ (kl : KeyLen) (d : List Byte) (i : Instr), decode kl d = .ok i → encode i = d ∧ i.wf kl = true

/-- R64, R65: a byte string decodes exactly when its first byte is one of the nine opcodes and its length is
that opcode's: in a build with every mode these are the rows of R63. -/
def Obligations.DecodableIsOpcodeAndLength : Prop :=
  ∀ (b : Build) (d : List Byte),
    (∃ i, decode b.keyLen d = .ok i) ↔
      ∃ row ∈ commandRows b, d.head? = some row.op ∧ d.length = row.bytes

/-- R70: worked descriptors for KEYLEN = 128, and byte strings that are none. -/
def Obligations.WorkedDescriptorsDecode : Prop :=
  decode .k128 [0x04] = .ok .destroy ∧
  decode .k128 [0x11, 0x00, 0x00, 0x00, 0x10] = .ok (.ecbDec 16) ∧
  decode .k128 [0x20, 0x00, 0x00, 0x00, 0x00, 0x00, 0x00, 0x00, 0x40] = .ok (.cbcEnc 0 64) ∧
  decode .k128 [0x30, 0x00, 0x00, 0x00, 0x14, 0x00, 0x00, 0x00, 0x0c] = .ok (.ctrXcrypt 20 12) ∧
  decode .k128 (0x03 :: (List.range 16).map (BitVec.ofNat 8)) =
    .ok (.setIv (Block.ofFn (BitVec.ofNat 8))) ∧
  decode .k128 [0x00] = .error (.unknownOpcode 0x00) ∧
  decode .k128 [0x05] = .error (.unknownOpcode 0x05) ∧
  decode .k128 [0x04, 0x00] = .error (.wrongLength 0x04 1 2) ∧
  decode .k128 [] = .error .empty

/-- R69: CTR_ENC and CTR_DEC expand to one CTR_XCRYPT, REKEY to INIT, and ECB_ENC_N and ECB_DEC_N over a range
of whole blocks to one command per block, at ptr, ptr+16, … in order, whenever the last of these is an address
R68 can write (below 2^32). Otherwise there is no expansion, which is the model's choice (log entry 15). -/
def Obligations.PseudoCommandsExpandToCommands : Prop :=
  (∀ (ptr len : BitVec 32) (key : List Byte),
    (AsmCommand.ctrEnc ptr len).expand = some [.ctrXcrypt ptr len] ∧
    (AsmCommand.ctrDec ptr len).expand = some [.ctrXcrypt ptr len] ∧
    (AsmCommand.rekey key).expand = some [.init key]) ∧
  (∀ ptr n : BitVec 32, n.toNat % 16 = 0 → ptr.toNat + n.toNat < 2 ^ 32 + 16 →
    ∃ e d, (AsmCommand.ecbEncN ptr n).expand = some e ∧ (AsmCommand.ecbDecN ptr n).expand = some d ∧
      e.length = n.toNat / 16 ∧ d.length = n.toNat / 16 ∧
      ∀ j, j < n.toNat / 16 → ∃ p : BitVec 32, p.toNat = ptr.toNat + 16 * j ∧
        e[j]? = some (.ecbEnc p) ∧ d[j]? = some (.ecbDec p)) ∧
  ∀ ptr n : BitVec 32, n.toNat % 16 ≠ 0 ∨ 2 ^ 32 + 16 ≤ ptr.toNat + n.toNat →
    (AsmCommand.ecbEncN ptr n).expand = none ∧ (AsmCommand.ecbDecN ptr n).expand = none

/-! ### The step and the acceptance procedure -/

/-- R60, R170 step 1: when the host's next action is a descriptor that decodes to a command, the step takes
it from the queue (the model's own, log entry 2) and is exec of the command; when it is illegal, the step
rejects it with ILLEGAL_CMD. -/
def Obligations.StepRunsTheDecodedCommand : Prop :=
  ∀ (s : State) (d : List Byte) (rest : List HostAction), s.pending = .command d :: rest →
    (∀ i, decode s.build.keyLen d = .ok i → step s = exec i { s with pending := rest }) ∧
    (∀ e, decode s.build.keyLen d = .error e →
      step s = .next { s with pending := rest, err := .illegalCmd, sticky := true })

/-- R170: in an engine that meets the invariant every descriptor is accepted or rejected, and the step
answers a next state: the engine is never stuck and never faults. -/
def Obligations.EveryDescriptorCompletes : Prop :=
  ∀ (s : State) (d : List Byte) (rest : List HostAction), EngineInv s → s.pending = .command d :: rest →
    ∃ t, step s = .next t

/-- R172: a step that rejects a descriptor changes ERR and STICKY and, but for taking the descriptor from
the host's queue (the model's own, log entry 2), nothing else. -/
def Obligations.RejectChangesOnlyErrAndSticky : Prop :=
  ∀ (s t : State) (d : List Byte) (rest : List HostAction), s.pending = .command d :: rest →
    step s = .next t → t.err ≠ .ok → t = { s with pending := rest, err := t.err, sticky := true }

/-- R173: ILLEGAL_CMD is reported when, and only when, the descriptor spells no command of this build. -/
def Obligations.IllegalCmdIffNoCommandOfTheBuild : Prop :=
  ∀ (s t : State) (d : List Byte) (rest : List HostAction), s.pending = .command d :: rest →
    step s = .next t → (t.err = .illegalCmd ↔ ¬ spellsCommand s.build d)

/-- R174: PHASE is reported when, and only when, the command is legal and it is SET_IV, ECB_ENC or ECB_DEC
in UNINIT, or CBC_ENC, CBC_DEC or CTR_XCRYPT in UNINIT or KEYEXP. -/
def Obligations.PhaseRejectIffContextLacksWhatIsNeeded : Prop :=
  ∀ (i : Instr) (s t : State), exec i s = .next t →
    (t.err = .phase ↔ existsIn s.build i ∧
      match i with
      | .init _ => False
      | .initIv _ _ => False
      | .setIv _ => s.phase = .uninit
      | .destroy => False
      | .ecbEnc _ => s.phase = .uninit
      | .ecbDec _ => s.phase = .uninit
      | .cbcEnc _ _ => s.phase = .uninit ∨ s.phase = .keyexp
      | .cbcDec _ _ => s.phase = .uninit ∨ s.phase = .keyexp
      | .ctrXcrypt _ _ => s.phase = .uninit ∨ s.phase = .keyexp)

/-- R175: LENGTH is reported when, and only when, the command is CBC_ENC or CBC_DEC, passes the checks
before, and `len mod 16 ≠ 0`. -/
def Obligations.LengthRejectIffRaggedCbc : Prop :=
  ∀ (i : Instr) (s t : State), exec i s = .next t →
    (t.err = .length ↔
      existsIn s.build i ∧ (phaseTable i s.phase).isSome = true ∧ raggedCbc i)

/-- R176: BOUNDS is reported when, and only when, the command passes the checks before and its range is not
inside BUF, the sum in the naturals. -/
def Obligations.BoundsRejectIffRangeOutsideBuf : Prop :=
  ∀ (i : Instr) (s t : State), exec i s = .next t →
    (t.err = .bounds ↔
      existsIn s.build i ∧ (phaseTable i s.phase).isSome = true ∧ ¬ raggedCbc i ∧ outsideBuf s.build i)

/-- R134: an accepted command leaves the phase of the phase table, a rejected one the phase it found, and a
command of the build in a "—" cell, and only such a command, is rejected with PHASE. -/
def Obligations.PhaseFollowsThePhaseTable : Prop :=
  ∀ (i : Instr) (s t : State), exec i s = .next t →
    (t.err = .ok → phaseTable i s.phase = some t.phase) ∧
    (t.err ≠ .ok → t.phase = s.phase) ∧
    (existsIn s.build i → phaseTable i s.phase = none → t.err = .phase) ∧
    (phaseTable i s.phase ≠ none → t.err ≠ .phase)

/-- R28, R172: after a descriptor STICKY is what it was, or 1 if the descriptor was rejected. -/
def Obligations.StickyRecordsEveryReject : Prop :=
  ∀ (s t : State) (d : List Byte) (rest : List HostAction), s.pending = .command d :: rest →
    step s = .next t → t.sticky = (s.sticky || decide (t.err ≠ .ok))

/-! ### The context commands -/

/-- R130: INIT with a key of KEYBYTES bytes completes in every phase of every build: RK is the expanded key,
CV is unwritten, PHASE is KEYEXP, ERR is 0, and nothing else changes. -/
def Obligations.InitExpandsTheKey : Prop :=
  ∀ (s : State) (key : List Byte), key.length = s.build.keyLen.keyBytes →
    exec (.init key) s = .next
      { s with rk := some (expand s.build.keyLen key), cv := none, phase := .keyexp, err := .ok }

/-- R131: INIT_IV completes in every phase of a build with a chaining mode: RK is the expanded key, CV is
the iv, PHASE is CHSET, ERR is 0, and nothing else changes. -/
def Obligations.InitIvExpandsTheKeyAndSetsTheChain : Prop :=
  ∀ (s : State) (key : List Byte) (iv : Block), key.length = s.build.keyLen.keyBytes →
    (s.build.enCbc = true ∨ s.build.enCtr = true) →
    exec (.initIv key iv) s = .next
      { s with rk := some (expand s.build.keyLen key), cv := some iv, phase := .chset, err := .ok }

/-- R131: INIT_IV "is exactly `INIT key` followed by `SET_IV iv`, as one indivisible command". -/
def Obligations.InitIvIsInitThenSetIv : Prop :=
  ∀ (s t : State) (key : List Byte) (iv : Block), key.length = s.build.keyLen.keyBytes →
    (s.build.enCbc = true ∨ s.build.enCtr = true) →
    (exec (.initIv key iv) s = .next t ↔
      ∃ u, exec (.init key) s = .next u ∧ exec (.setIv iv) u = .next t)

/-- R132: SET_IV completes in every phase but UNINIT of a build with a chaining mode: CV is the iv, PHASE is
CHSET, ERR is 0, and RK and everything else stays. -/
def Obligations.SetIvReplacesTheChain : Prop :=
  ∀ (s : State) (iv : Block), (s.build.enCbc = true ∨ s.build.enCtr = true) → s.phase ≠ .uninit →
    exec (.setIv iv) s = .next { s with cv := some iv, phase := .chset, err := .ok }

/-- R133: DESTROY completes in every phase of every build: RK and CV are unwritten, PHASE is UNINIT, ERR is
0; STICKY, BUF and everything else stays, so that but for STICKY the state is the one reset leaves. -/
def Obligations.DestroyDisposesOfTheContext : Prop :=
  ∀ s : State,
    exec .destroy s = .next { s with rk := none, cv := none, phase := .uninit, err := .ok } ∧
    exec .destroy s = .next { applyReset s with sticky := s.sticky }

/-! ### The mode commands -/

/-- R140: an ECB_ENC whose range is in BUF completes once a key is loaded: the 16 bytes at `ptr` become
their Cipher image, every other byte of BUF, CV, PHASE and everything else stays, and ERR is 0. -/
def Obligations.EcbEncEnciphersOneBlock : Prop :=
  ∀ (s : State) (ptr : BitVec 32) (rk : List Byte),
    s.build.enEcb = true → s.phase ≠ .uninit → s.rk = some rk → s.buf.wf = true →
    ptr.toNat + 16 ≤ s.build.bufSize →
    ∃ m, exec (.ecbEnc ptr) s = .next { s with buf := m, err := .ok } ∧
      m.readBlock ptr.toNat = cipher s.build.keyLen.nr rk (s.buf.readBlock ptr.toNat) ∧
      sameOutside (touchedRange (.ecbEnc ptr)) s.buf m

/-- R141: ECB_DEC, the same with InvCipher and the same RK. -/
def Obligations.EcbDecDeciphersOneBlock : Prop :=
  ∀ (s : State) (ptr : BitVec 32) (rk : List Byte),
    s.build.enEcb = true → s.phase ≠ .uninit → s.rk = some rk → s.buf.wf = true →
    ptr.toNat + 16 ≤ s.build.bufSize →
    ∃ m, exec (.ecbDec ptr) s = .next { s with buf := m, err := .ok } ∧
      m.readBlock ptr.toNat = invCipher s.build.keyLen.nr rk (s.buf.readBlock ptr.toNat) ∧
      sameOutside (touchedRange (.ecbDec ptr)) s.buf m

/-- R141: ECB_ENC then ECB_DEC at one address, and the reverse order, restore the state but for ERR. -/
def Obligations.EcbRoundTripRestoresTheState : Prop :=
  ∀ (s : State) (ptr : BitVec 32),
    EngineInv s → s.build.enEcb = true → s.phase ≠ .uninit → ptr.toNat + 16 ≤ s.build.bufSize →
    (∃ u, exec (.ecbEnc ptr) s = .next u ∧ exec (.ecbDec ptr) u = .next { s with err := .ok }) ∧
    (∃ u, exec (.ecbDec ptr) s = .next u ∧ exec (.ecbEnc ptr) u = .next { s with err := .ok })

/-- R150: an accepted CBC_ENC: block j of the range becomes Cipher of (itself XOR the ciphertext block
before it, or CV for the first); CV becomes the last ciphertext block, or stays when there is none; PHASE is
STREAM, ERR is 0, bytes outside the range and everything else stay. -/
def Obligations.CbcEncChainsTheCiphertext : Prop :=
  ∀ (s : State) (ptr len : BitVec 32) (rk : List Byte) (cv : Block),
    s.build.enCbc = true → (s.phase = .chset ∨ s.phase = .stream) →
    s.rk = some rk → s.cv = some cv → s.buf.wf = true →
    len.toNat % 16 = 0 → ptr.toNat + len.toNat ≤ s.build.bufSize →
    ∃ m cv', exec (.cbcEnc ptr len) s =
        .next { s with buf := m, cv := some cv', phase := .stream, err := .ok } ∧
      (∀ j, j < len.toNat / 16 →
        m.readBlock (ptr.toNat + 16 * j) = cipher s.build.keyLen.nr rk
          ((s.buf.readBlock (ptr.toNat + 16 * j)).xor
            (if j = 0 then cv else m.readBlock (ptr.toNat + 16 * (j - 1))))) ∧
      cv' = (if len.toNat = 0 then cv else m.readBlock (ptr.toNat + len.toNat - 16)) ∧
      sameOutside (touchedRange (.cbcEnc ptr len)) s.buf m

/-- R151: an accepted CBC_DEC: block j of the range becomes InvCipher of itself XOR the ciphertext block that
stood before it, or CV for the first; CV becomes the last ciphertext block as it stood BEFORE the command, or
stays when there is none; PHASE is STREAM, ERR is 0, bytes outside the range and everything else stay. -/
def Obligations.CbcDecChainsTheSavedCiphertext : Prop :=
  ∀ (s : State) (ptr len : BitVec 32) (rk : List Byte) (cv : Block),
    s.build.enCbc = true → (s.phase = .chset ∨ s.phase = .stream) →
    s.rk = some rk → s.cv = some cv → s.buf.wf = true →
    len.toNat % 16 = 0 → ptr.toNat + len.toNat ≤ s.build.bufSize →
    ∃ m cv', exec (.cbcDec ptr len) s =
        .next { s with buf := m, cv := some cv', phase := .stream, err := .ok } ∧
      (∀ j, j < len.toNat / 16 →
        m.readBlock (ptr.toNat + 16 * j) =
          (invCipher s.build.keyLen.nr rk (s.buf.readBlock (ptr.toNat + 16 * j))).xor
            (if j = 0 then cv else s.buf.readBlock (ptr.toNat + 16 * (j - 1)))) ∧
      cv' = (if len.toNat = 0 then cv else s.buf.readBlock (ptr.toNat + len.toNat - 16)) ∧
      sameOutside (touchedRange (.cbcDec ptr len)) s.buf m

/-- R152 (1): from a state with CV = iv, CBC_ENC, SET_IV iv and CBC_DEC over one range restore BUF, and so
do CBC_DEC, SET_IV iv and CBC_ENC. -/
def Obligations.CbcRoundTripRestoresTheBuffer : Prop :=
  ∀ (s : State) (ptr len : BitVec 32) (iv : Block),
    EngineInv s → s.build.enCbc = true → s.cv = some iv →
    len.toNat % 16 = 0 → ptr.toNat + len.toNat ≤ s.build.bufSize →
    (∃ u v t, exec (.cbcEnc ptr len) s = .next u ∧ exec (.setIv iv) u = .next v ∧
      exec (.cbcDec ptr len) v = .next t ∧ t.buf = s.buf) ∧
    (∃ u v t, exec (.cbcDec ptr len) s = .next u ∧ exec (.setIv iv) u = .next v ∧
      exec (.cbcEnc ptr len) v = .next t ∧ t.buf = s.buf)

/-- R152 (2): two CBC_ENC commands on adjacent ranges leave exactly the state one command over the whole
range leaves; the same for CBC_DEC. -/
def Obligations.CbcStreamsAcrossCommands : Prop :=
  ∀ (s : State) (ptr mid a b len : BitVec 32),
    EngineInv s → s.build.enCbc = true → s.phase.hasChain = true →
    a.toNat % 16 = 0 → b.toNat % 16 = 0 →
    mid.toNat = ptr.toNat + a.toNat → len.toNat = a.toNat + b.toNat →
    ptr.toNat + len.toNat ≤ s.build.bufSize →
    (∃ u t, exec (.cbcEnc ptr a) s = .next u ∧ exec (.cbcEnc mid b) u = .next t ∧
      exec (.cbcEnc ptr len) s = .next t) ∧
    (∃ u t, exec (.cbcDec ptr a) s = .next u ∧ exec (.cbcDec mid b) u = .next t ∧
      exec (.cbcDec ptr len) s = .next t)

/-- R152 (4): CBC_DEC right after CBC_ENC on the same range, with no SET_IV between, leaves every block but the
first as it was before both, and the first XORed with the final chaining value and the iv. -/
def Obligations.CbcDecWithoutSetIvGarblesOnlyTheFirstBlock : Prop :=
  ∀ (s : State) (ptr len : BitVec 32) (iv : Block),
    EngineInv s → s.build.enCbc = true → s.cv = some iv →
    len.toNat % 16 = 0 → 0 < len.toNat → ptr.toNat + len.toNat ≤ s.build.bufSize →
    ∃ u t last, exec (.cbcEnc ptr len) s = .next u ∧ exec (.cbcDec ptr len) u = .next t ∧
      u.cv = some last ∧
      t.buf.readBlock ptr.toNat = (s.buf.readBlock ptr.toNat).xor (last.xor iv) ∧
      ∀ j, 1 ≤ j → j < len.toNat / 16 →
        t.buf.readBlock (ptr.toNat + 16 * j) = s.buf.readBlock (ptr.toNat + 16 * j)

/-- R161: `val(CtrInc(cv)) = (val(cv) + 1) mod 2^128`. -/
def Obligations.CtrIncAddsOneModTwoPow128 : Prop :=
  ∀ cv : Block, counterValue (ctrInc cv) = (counterValue cv + 1) % 2 ^ 128

/-- R160: an accepted CTR_XCRYPT of any length: byte i of the range is XORed with byte `i mod 16` of
Cipher(C + i/16), C the counter it starts from; the counter ends ceil(len/16) on, modulo 2^128; PHASE is
STREAM, ERR is 0, bytes outside the range and everything else stay. -/
def Obligations.CtrXcryptXorsTheKeystream : Prop :=
  ∀ (s : State) (ptr len : BitVec 32) (rk : List Byte) (cv : Block),
    s.build.enCtr = true → (s.phase = .chset ∨ s.phase = .stream) →
    s.rk = some rk → s.cv = some cv → s.buf.wf = true →
    ptr.toNat + len.toNat ≤ s.build.bufSize →
    ∃ m cv', exec (.ctrXcrypt ptr len) s =
        .next { s with buf := m, cv := some cv', phase := .stream, err := .ok } ∧
      (∀ i, i < len.toNat →
        ∃ c : Block, counterValue c = (counterValue cv + i / 16) % 2 ^ 128 ∧
          m.read (ptr.toNat + i) =
            s.buf.read (ptr.toNat + i) ^^^ (cipher s.build.keyLen.nr rk c).byte (i % 16)) ∧
      counterValue cv' = (counterValue cv + (len.toNat + 15) / 16) % 2 ^ 128 ∧
      sameOutside (touchedRange (.ctrXcrypt ptr len)) s.buf m

/-- The counter's integer determines the counter, so that the Block `c` of CtrXcryptXorsTheKeystream is the
one counter block of that value (R161: all 16 bytes take part). -/
def Obligations.CounterValueIsInjective : Prop :=
  ∀ c c' : Block, counterValue c = counterValue c' → c = c'

/-- R163: from a state with CV = C, CTR_XCRYPT, SET_IV C and the same CTR_XCRYPT restore BUF. -/
def Obligations.CtrTwiceRestoresTheBuffer : Prop :=
  ∀ (s : State) (ptr len : BitVec 32) (c : Block),
    EngineInv s → s.build.enCtr = true → s.cv = some c → ptr.toNat + len.toNat ≤ s.build.bufSize →
    ∃ u v t, exec (.ctrXcrypt ptr len) s = .next u ∧ exec (.setIv c) u = .next v ∧
      exec (.ctrXcrypt ptr len) v = .next t ∧ t.buf = s.buf

/-- R164 (1): when the first length is a multiple of 16, two CTR_XCRYPT commands on adjacent ranges leave
exactly the state one command over the whole range leaves. -/
def Obligations.CtrSplitsAtWholeBlocks : Prop :=
  ∀ (s : State) (ptr mid a b len : BitVec 32),
    EngineInv s → s.build.enCtr = true → s.phase.hasChain = true → a.toNat % 16 = 0 →
    mid.toNat = ptr.toNat + a.toNat → len.toNat = a.toNat + b.toNat →
    ptr.toNat + len.toNat ≤ s.build.bufSize →
    ∃ u t, exec (.ctrXcrypt ptr a) s = .next u ∧ exec (.ctrXcrypt mid b) u = .next t ∧
      exec (.ctrXcrypt ptr len) s = .next t

/-- R162, R164 (2): whatever the first length, the second of two CTR_XCRYPT commands on adjacent ranges starts
a new keystream block: byte i of its range is XORed with byte `i mod 16` of Cipher(C + ceil(a/16) + i/16), and
the counter ends ceil(a/16) + ceil(b/16) ahead of its start. -/
def Obligations.CtrSplitRestartsTheKeystream : Prop :=
  ∀ (s : State) (ptr mid a b : BitVec 32) (rk : List Byte) (cv : Block),
    s.build.enCtr = true → (s.phase = .chset ∨ s.phase = .stream) →
    s.rk = some rk → s.cv = some cv → s.buf.wf = true →
    mid.toNat = ptr.toNat + a.toNat → mid.toNat + b.toNat ≤ s.build.bufSize →
    ∃ u t cv', exec (.ctrXcrypt ptr a) s = .next u ∧ exec (.ctrXcrypt mid b) u = .next t ∧
      t.cv = some cv' ∧
      counterValue cv' =
        (counterValue cv + (a.toNat + 15) / 16 + (b.toNat + 15) / 16) % 2 ^ 128 ∧
      ∀ i, i < b.toNat →
        ∃ c : Block, counterValue c = (counterValue cv + (a.toNat + 15) / 16 + i / 16) % 2 ^ 128 ∧
          t.buf.read (mid.toNat + i) =
            s.buf.read (mid.toNat + i) ^^^ (cipher s.build.keyLen.nr rk c).byte (i % 16)

/-! ### Frames -/

/-- R130 to R133: whatever next state INIT, INIT_IV, SET_IV or DESTROY gives, every byte of BUF, the build and
the host's queue are unchanged; STICKY is unchanged unless the command is rejected, and SET_IV leaves RK. -/
def Obligations.ContextCommandsFrame : Prop :=
  ∀ (s t : State) (key : List Byte) (iv : Block),
    (exec (.init key) s = .next t ∨ exec (.initIv key iv) s = .next t ∨
      exec (.setIv iv) s = .next t ∨ exec .destroy s = .next t) →
    (∀ a, t.buf.read a = s.buf.read a) ∧ t.build = s.build ∧ t.pending = s.pending ∧
    (t.err = .ok → t.sticky = s.sticky) ∧ (exec (.setIv iv) s = .next t → t.rk = s.rk)

/-- R140, R141: whatever next state ECB_ENC or ECB_DEC gives, every byte of BUF outside the 16 bytes at `ptr`
reads as before, and RK, CV, PHASE, the build and the host's queue are unchanged; STICKY is unchanged unless
the command is rejected. -/
def Obligations.EcbCommandsFrame : Prop :=
  ∀ (s t : State) (ptr : BitVec 32), s.buf.wf = true →
    (exec (.ecbEnc ptr) s = .next t ∨ exec (.ecbDec ptr) s = .next t) →
    (∀ a, (blockRange ptr).covers a = false → t.buf.read a = s.buf.read a) ∧
    t.rk = s.rk ∧ t.cv = s.cv ∧ t.phase = s.phase ∧ t.build = s.build ∧ t.pending = s.pending ∧
    (t.err = .ok → t.sticky = s.sticky)

/-- R150, R151, R160: whatever next state CBC_ENC, CBC_DEC or CTR_XCRYPT gives, every byte of BUF outside the
`len` bytes at `ptr` reads as before, and RK, the build and the host's queue are unchanged; STICKY is
unchanged unless the command is rejected. -/
def Obligations.StreamCommandsFrame : Prop :=
  ∀ (s t : State) (ptr len : BitVec 32), s.buf.wf = true →
    (exec (.cbcEnc ptr len) s = .next t ∨ exec (.cbcDec ptr len) s = .next t ∨
      exec (.ctrXcrypt ptr len) s = .next t) →
    (∀ a, (spanRange ptr len).covers a = false → t.buf.read a = s.buf.read a) ∧
    t.rk = s.rk ∧ t.build = s.build ∧ t.pending = s.pending ∧
    (t.err = .ok → t.sticky = s.sticky)

/-- R45: no command changes a byte of BUF outside the range of the table of R45 (for a context command the
empty range). -/
def Obligations.NoCommandWritesOutsideItsRange : Prop :=
  ∀ (i : Instr) (s t : State), s.buf.wf = true → exec i s = .next t →
    sameOutside (touchedRange i) s.buf t.buf

/-! ### The invariant and the machine as a whole -/

/-- The reset state meets the invariant; its build and its empty BUF are the model's choice (log entries 1
and 4). -/
def Obligations.ResetMeetsTheInvariant : Prop := EngineInv State.reset

/-- An instance of any build the spec allows, launched with any canonical BUF, meets the invariant. -/
def Obligations.EveryLaunchMeetsTheInvariant : Prop :=
  ∀ (b : Build) (buf : Memory), b.wf = true → buf.wf = true → buf.below b.bufSize = true →
    EngineInv (State.launch b buf)

/-- Every step keeps the invariant: RK and CV are written in the phases of R22 and only there, RK is the
expansion of a key (R20), a build without a chaining mode never reaches CHSET or STREAM, a reject sticks,
and BUF stays canonical and inside its addresses. -/
def Obligations.StepKeepsTheInvariant : Prop :=
  ∀ s t : State, EngineInv s → step s = .next t → EngineInv t

/-- R9: no command, reset or host action changes a build parameter. -/
def Obligations.NoStepChangesTheBuild : Prop :=
  ∀ s t : State, step s = .next t → t.build = s.build ∧ t.config = s.config

/-- R20: only INIT, INIT_IV and DESTROY (and reset) write RK: a descriptor with another opcode leaves it. -/
def Obligations.OnlyInitAndDestroyWriteTheSchedule : Prop :=
  ∀ (s t : State) (d : List Byte) (rest : List HostAction), s.pending = .command d :: rest →
    step s = .next t → t.rk ≠ s.rk →
    d.head? = some 0x01 ∨ d.head? = some 0x02 ∨ d.head? = some 0x04

/-- R67, R170: which way a descriptor goes depends on the build, PHASE and the descriptor alone: two engines
that agree on these (and on STICKY), with any keys, chaining values and BUF contents, report the same ERR
and end in the same PHASE and STICKY. -/
def Obligations.OutcomeDoesNotDependOnKeyOrData : Prop :=
  ∀ (s s' t t' : State) (d : List Byte) (rest rest' : List HostAction),
    s.build = s'.build → s.phase = s'.phase → s.sticky = s'.sticky →
    s.pending = .command d :: rest → s'.pending = .command d :: rest' →
    step s = .next t → step s' = .next t' →
    t.err = t'.err ∧ t.phase = t'.phase ∧ t.sticky = t'.sticky ∧ t.status = t'.status

/-! ### The host's side -/

/-- R22, R28, R40, R171: register 0 is STATUS with PHASE in bits 1:0 (UNINIT 0, KEYEXP 1, CHSET 2, STREAM 3),
STICKY in bit 3, ERR in bits 7:4 (OK 0, ILLEGAL_CMD 1, PHASE 2, LENGTH 3, BOUNDS 4) and the reserved bits 0. -/
def Obligations.StatusFieldsAreWhereTheSpecPutsThem : Prop :=
  ∀ s : State, hostReadReg 0 s = some s.status ∧
    s.status.extractLsb' 0 2 =
      (match s.phase with
        | .uninit => 0
        | .keyexp => 1
        | .chset => 2
        | .stream => 3) ∧
    s.status.getLsbD 2 = false ∧ s.status.getLsbD 3 = s.sticky ∧
    s.status.extractLsb' 4 4 =
      (match s.err with
        | .ok => 0
        | .illegalCmd => 1
        | .phase => 2
        | .length => 3
        | .bounds => 4) ∧
    s.status.extractLsb' 8 24 = 0

/-- R29, R40: register 1 is CONFIG with KEYSEL in bits 1:0, EN_ECB, EN_CBC, EN_CTR in bits 4, 5, 6 and the
reserved bits 0; KEYSEL is 0, 1 or 2 by KEYLEN; and CONFIG is constant. -/
def Obligations.ConfigFieldsReportTheBuild : Prop :=
  ∀ s : State, hostReadReg 1 s = some s.config ∧
    s.config.extractLsb' 0 2 =
      (match s.build.keyLen with
        | .k128 => 0
        | .k192 => 1
        | .k256 => 2) ∧
    s.config.extractLsb' 2 2 = 0 ∧
    s.config.getLsbD 4 = s.build.enEcb ∧ s.config.getLsbD 5 = s.build.enCbc ∧
    s.config.getLsbD 6 = s.build.enCtr ∧ s.config.extractLsb' 7 25 = 0 ∧
    s.config.extractLsb' 0 2 ≠ 3 ∧ ∀ t, step s = .next t → t.config = s.config

/-- R28, R29: a host write to STATUS or CONFIG is ignored. -/
def Obligations.RegisterWritesAreIgnored : Prop :=
  ∀ (s : State) (n : Nat) (v : BitVec 32) (rest : List HostAction), n < 2 →
    s.pending = .writeReg n v :: rest → step s = .next { s with pending := rest }

/-- R31, R51: a host write of a byte of BUF completes at every address below BUF_SIZE, the byte reads back and
no other byte and nothing else changes. -/
def Obligations.HostWriteChangesOneByte : Prop :=
  ∀ (s : State) (a : Nat) (v : Byte) (rest : List HostAction),
    s.buf.wf = true → a < s.build.bufSize → s.pending = .writeBuf a v :: rest →
    ∃ m, step s = .next { s with pending := rest, buf := m } ∧ m.read a = v ∧
      ∀ x, x ≠ a → m.read x = s.buf.read x

/-- R190, R191: after a reset PHASE is UNINIT, RK and CV are unwritten, STATUS reads 0x00000000, CONFIG and
BUF are unchanged, from every state. That the rest of the host's queue stays is the model's choice (log
entry 8). -/
def Obligations.ResetLeavesTheResetState : Prop :=
  ∀ (s : State) (rest : List HostAction), s.pending = .reset :: rest →
    ∃ t, step s = .next t ∧ t.phase = .uninit ∧ t.rk = none ∧ t.cv = none ∧ t.err = .ok ∧
      t.sticky = false ∧ t.status = 0x00000000 ∧ t.config = s.config ∧ t.buf = s.buf ∧
      t.build = s.build ∧ t.pending = rest
end

