-- ==== Sys2Proof/Laws/State.lean ====
section
/-!
SUPPORT. One lemma per field per named update of the state, each true by rfl, so that no proof unfolds a
record update.
-/

namespace Sys2Proof.Machine

@[simp] theorem State.loadKey_build (s : State) (rk : List Byte) : (s.loadKey rk).build = s.build := rfl
@[simp] theorem State.loadKey_phase (s : State) (rk : List Byte) : (s.loadKey rk).phase = .keyexp := rfl
@[simp] theorem State.loadKey_rk (s : State) (rk : List Byte) : (s.loadKey rk).rk = some rk := rfl
@[simp] theorem State.loadKey_cv (s : State) (rk : List Byte) : (s.loadKey rk).cv = none := rfl
@[simp] theorem State.loadKey_err (s : State) (rk : List Byte) : (s.loadKey rk).err = s.err := rfl
@[simp] theorem State.loadKey_sticky (s : State) (rk : List Byte) : (s.loadKey rk).sticky = s.sticky := rfl
@[simp] theorem State.loadKey_buf (s : State) (rk : List Byte) : (s.loadKey rk).buf = s.buf := rfl
@[simp] theorem State.loadKey_pending (s : State) (rk : List Byte) : (s.loadKey rk).pending = s.pending := rfl

@[simp] theorem State.loadIv_build (s : State) (iv : Block) : (s.loadIv iv).build = s.build := rfl
@[simp] theorem State.loadIv_phase (s : State) (iv : Block) : (s.loadIv iv).phase = .chset := rfl
@[simp] theorem State.loadIv_rk (s : State) (iv : Block) : (s.loadIv iv).rk = s.rk := rfl
@[simp] theorem State.loadIv_cv (s : State) (iv : Block) : (s.loadIv iv).cv = some iv := rfl
@[simp] theorem State.loadIv_err (s : State) (iv : Block) : (s.loadIv iv).err = s.err := rfl
@[simp] theorem State.loadIv_sticky (s : State) (iv : Block) : (s.loadIv iv).sticky = s.sticky := rfl
@[simp] theorem State.loadIv_buf (s : State) (iv : Block) : (s.loadIv iv).buf = s.buf := rfl
@[simp] theorem State.loadIv_pending (s : State) (iv : Block) : (s.loadIv iv).pending = s.pending := rfl

@[simp] theorem State.dispose_build (s : State) : s.dispose.build = s.build := rfl
@[simp] theorem State.dispose_phase (s : State) : s.dispose.phase = .uninit := rfl
@[simp] theorem State.dispose_rk (s : State) : s.dispose.rk = none := rfl
@[simp] theorem State.dispose_cv (s : State) : s.dispose.cv = none := rfl
@[simp] theorem State.dispose_err (s : State) : s.dispose.err = s.err := rfl
@[simp] theorem State.dispose_sticky (s : State) : s.dispose.sticky = s.sticky := rfl
@[simp] theorem State.dispose_buf (s : State) : s.dispose.buf = s.buf := rfl
@[simp] theorem State.dispose_pending (s : State) : s.dispose.pending = s.pending := rfl

@[simp] theorem State.setBuf_build (s : State) (m : Memory) : (s.setBuf m).build = s.build := rfl
@[simp] theorem State.setBuf_phase (s : State) (m : Memory) : (s.setBuf m).phase = s.phase := rfl
@[simp] theorem State.setBuf_rk (s : State) (m : Memory) : (s.setBuf m).rk = s.rk := rfl
@[simp] theorem State.setBuf_cv (s : State) (m : Memory) : (s.setBuf m).cv = s.cv := rfl
@[simp] theorem State.setBuf_err (s : State) (m : Memory) : (s.setBuf m).err = s.err := rfl
@[simp] theorem State.setBuf_sticky (s : State) (m : Memory) : (s.setBuf m).sticky = s.sticky := rfl
@[simp] theorem State.setBuf_buf (s : State) (m : Memory) : (s.setBuf m).buf = m := rfl
@[simp] theorem State.setBuf_pending (s : State) (m : Memory) : (s.setBuf m).pending = s.pending := rfl

@[simp] theorem State.streamed_build (s : State) (cv : Block) (m : Memory) : (s.streamed cv m).build = s.build := rfl
@[simp] theorem State.streamed_phase (s : State) (cv : Block) (m : Memory) : (s.streamed cv m).phase = .stream := rfl
@[simp] theorem State.streamed_rk (s : State) (cv : Block) (m : Memory) : (s.streamed cv m).rk = s.rk := rfl
@[simp] theorem State.streamed_cv (s : State) (cv : Block) (m : Memory) : (s.streamed cv m).cv = some cv := rfl
@[simp] theorem State.streamed_err (s : State) (cv : Block) (m : Memory) : (s.streamed cv m).err = s.err := rfl
@[simp] theorem State.streamed_sticky (s : State) (cv : Block) (m : Memory) : (s.streamed cv m).sticky = s.sticky := rfl
@[simp] theorem State.streamed_buf (s : State) (cv : Block) (m : Memory) : (s.streamed cv m).buf = m := rfl
@[simp] theorem State.streamed_pending (s : State) (cv : Block) (m : Memory) : (s.streamed cv m).pending = s.pending := rfl

@[simp] theorem State.setErr_build (s : State) (e : ErrCode) : (s.setErr e).build = s.build := rfl
@[simp] theorem State.setErr_phase (s : State) (e : ErrCode) : (s.setErr e).phase = s.phase := rfl
@[simp] theorem State.setErr_rk (s : State) (e : ErrCode) : (s.setErr e).rk = s.rk := rfl
@[simp] theorem State.setErr_cv (s : State) (e : ErrCode) : (s.setErr e).cv = s.cv := rfl
@[simp] theorem State.setErr_err (s : State) (e : ErrCode) : (s.setErr e).err = e := rfl
@[simp] theorem State.setErr_sticky (s : State) (e : ErrCode) : (s.setErr e).sticky = s.sticky := rfl
@[simp] theorem State.setErr_buf (s : State) (e : ErrCode) : (s.setErr e).buf = s.buf := rfl
@[simp] theorem State.setErr_pending (s : State) (e : ErrCode) : (s.setErr e).pending = s.pending := rfl

@[simp] theorem takeReject_build (s : State) (e : ErrCode) : (takeReject e s).build = s.build := rfl
@[simp] theorem takeReject_phase (s : State) (e : ErrCode) : (takeReject e s).phase = s.phase := rfl
@[simp] theorem takeReject_rk (s : State) (e : ErrCode) : (takeReject e s).rk = s.rk := rfl
@[simp] theorem takeReject_cv (s : State) (e : ErrCode) : (takeReject e s).cv = s.cv := rfl
@[simp] theorem takeReject_err (s : State) (e : ErrCode) : (takeReject e s).err = e := rfl
@[simp] theorem takeReject_sticky (s : State) (e : ErrCode) : (takeReject e s).sticky = true := rfl
@[simp] theorem takeReject_buf (s : State) (e : ErrCode) : (takeReject e s).buf = s.buf := rfl
@[simp] theorem takeReject_pending (s : State) (e : ErrCode) : (takeReject e s).pending = s.pending := rfl

@[simp] theorem applyReset_build (s : State) : (applyReset s).build = s.build := rfl
@[simp] theorem applyReset_phase (s : State) : (applyReset s).phase = .uninit := rfl
@[simp] theorem applyReset_rk (s : State) : (applyReset s).rk = none := rfl
@[simp] theorem applyReset_cv (s : State) : (applyReset s).cv = none := rfl
@[simp] theorem applyReset_err (s : State) : (applyReset s).err = .ok := rfl
@[simp] theorem applyReset_sticky (s : State) : (applyReset s).sticky = false := rfl
@[simp] theorem applyReset_buf (s : State) : (applyReset s).buf = s.buf := rfl
@[simp] theorem applyReset_pending (s : State) : (applyReset s).pending = s.pending := rfl

end Sys2Proof.Machine
end

