-- ==== Sys2Proof/Laws/Acceptance.lean ====
section
/-!
SUPPORT. The acceptance procedure (R170): everything `guarded` can answer, and the checks each meaning makes,
so that no later proof unfolds them.
-/

namespace Sys2Proof.Machine

/-- The first failing check is none exactly when all four pass. -/
theorem firstFailure_eq_none {c : Checks} :
    firstFailure c = none ↔
      c.inBuild = true ∧ c.phaseOk = true ∧ c.lengthOk = true ∧ c.boundsOk = true := by
  obtain ⟨a, b, c, d⟩ := c
  revert a b c d
  decide

/-- A check that fails never reports OK. -/
theorem firstFailure_ne_ok {c : Checks} {e : ErrCode} (h : firstFailure c = some e) : e ≠ .ok := by
  rintro rfl
  obtain ⟨a, b, c, d⟩ := c
  revert a b c d
  decide

theorem firstFailure_eq_illegalCmd {c : Checks} :
    firstFailure c = some .illegalCmd ↔ c.inBuild = false := by
  obtain ⟨a, b, c, d⟩ := c
  revert a b c d
  decide

theorem firstFailure_eq_phase {c : Checks} :
    firstFailure c = some .phase ↔ c.inBuild = true ∧ c.phaseOk = false := by
  obtain ⟨a, b, c, d⟩ := c
  revert a b c d
  decide

theorem firstFailure_eq_length {c : Checks} :
    firstFailure c = some .length ↔ c.inBuild = true ∧ c.phaseOk = true ∧ c.lengthOk = false := by
  obtain ⟨a, b, c, d⟩ := c
  revert a b c d
  decide

theorem firstFailure_eq_bounds {c : Checks} :
    firstFailure c = some .bounds ↔
      c.inBuild = true ∧ c.phaseOk = true ∧ c.lengthOk = true ∧ c.boundsOk = false := by
  obtain ⟨a, b, c, d⟩ := c
  revert a b c d
  decide

/-- Everything a guarded command can answer with a next state: a reject with the first failing check's
code, or what the command itself answers. -/
theorem guarded_eq_next {c : Checks} {s t : State} {run : Result} :
    guarded c s run = .next t ↔
      (∃ code, firstFailure c = some code ∧ t = takeReject code s) ∨
      (firstFailure c = none ∧ run = .next t) := by
  unfold guarded
  cases h : firstFailure c with
  | none => simp
  | some code => simp [eq_comm]

/-- A guarded command whose checks pass is the command. -/
theorem guarded_of_passes {c : Checks} {s : State} {run : Result} (h : firstFailure c = none) :
    guarded c s run = run := by
  simp [guarded, h]

/-- A guarded command that fails a check is rejected. -/
theorem guarded_of_fails {c : Checks} {s : State} {run : Result} {code : ErrCode}
    (h : firstFailure c = some code) : guarded c s run = .next (takeReject code s) := by
  simp [guarded, h]

@[simp] theorem acceptWith_eq_next {s t : State} : acceptWith s = .next t ↔ t = s.setErr .ok := by
  simp [acceptWith, eq_comm]

@[simp] theorem cbcFinish_eq_next {l : CbcLoop} {s t : State} :
    cbcFinish l s = .next t ↔ t = (s.streamed l.cv l.mem).setErr .ok := acceptWith_eq_next

@[simp] theorem ctrFinish_eq_next {l : CtrLoop} {s t : State} :
    ctrFinish l s = .next t ↔ t = (s.streamed l.cv l.mem).setErr .ok := acceptWith_eq_next

theorem withSchedule_of_some {s : State} {rk : List Byte} (h : s.rk = some rk)
    (run : List Byte → Result) : withSchedule s run = run rk := by
  simp [withSchedule, h]

theorem withChaining_of_some {s : State} {cv : Block} (h : s.cv = some cv)
    (run : Block → Result) : withChaining s run = run cv := by
  simp [withChaining, h]

theorem withSchedule_eq_next {s t : State} {run : List Byte → Result} :
    withSchedule s run = .next t ↔ ∃ rk, s.rk = some rk ∧ run rk = .next t := by
  unfold withSchedule
  cases h : s.rk with
  | none => simp
  | some rk => simp

theorem withChaining_eq_next {s t : State} {run : Block → Result} :
    withChaining s run = .next t ↔ ∃ cv, s.cv = some cv ∧ run cv = .next t := by
  unfold withChaining
  cases h : s.cv with
  | none => simp
  | some cv => simp

/-- R170: the checks the meaning of a command makes. -/
def checksOf (i : Instr) (s : State) : Checks :=
  match i with
  | .init key => { inBuild := keyFits s.build key }
  | .initIv key _ => { inBuild := keyFits s.build key && s.build.enChain }
  | .setIv _ => { inBuild := s.build.enChain, phaseOk := s.phase.hasKey }
  | .destroy => { inBuild := true }
  | .ecbEnc ptr => ecbChecks ptr s
  | .ecbDec ptr => ecbChecks ptr s
  | .cbcEnc ptr len => cbcChecks ptr len s
  | .cbcDec ptr len => cbcChecks ptr len s
  | .ctrXcrypt ptr len => ctrChecks ptr len s

/-- R170, step 6: what a command answers once every check has passed. -/
def runOf (i : Instr) (s : State) : Result :=
  match i with
  | .init key => acceptWith (s.loadKey (expand s.build.keyLen key))
  | .initIv key iv => acceptWith ((s.loadKey (expand s.build.keyLen key)).loadIv iv)
  | .setIv iv => acceptWith (s.loadIv iv)
  | .destroy => acceptWith s.dispose
  | .ecbEnc ptr => withSchedule s fun rk =>
      acceptWith (s.setBuf (ecbBlock (cipher s.build.keyLen.nr rk) ptr.toNat s.buf))
  | .ecbDec ptr => withSchedule s fun rk =>
      acceptWith (s.setBuf (ecbBlock (invCipher s.build.keyLen.nr rk) ptr.toNat s.buf))
  | .cbcEnc ptr len => withSchedule s fun rk => withChaining s fun cv =>
      cbcFinish (cbcEncLoop (cipher s.build.keyLen.nr rk) ptr.toNat (len.toNat / 16) ⟨cv, s.buf⟩) s
  | .cbcDec ptr len => withSchedule s fun rk => withChaining s fun cv =>
      cbcFinish (cbcDecLoop (invCipher s.build.keyLen.nr rk) ptr.toNat (len.toNat / 16) ⟨cv, s.buf⟩) s
  | .ctrXcrypt ptr len => withSchedule s fun rk => withChaining s fun cv =>
      ctrFinish (ctrLoop (cipher s.build.keyLen.nr rk) ptr.toNat len.toNat (ctrStart cv s.buf)) s

/-- Every command is its checks and then its own effect. -/
theorem exec_eq_guarded (i : Instr) (s : State) : exec i s = guarded (checksOf i s) s (runOf i s) := by
  cases i <;> rfl

/-- Everything a command can do: it is rejected and only ERR and STICKY change, or every check passed and
its own effect gave the next state. -/
theorem exec_eq_next {i : Instr} {s t : State} :
    exec i s = .next t ↔
      (∃ code, firstFailure (checksOf i s) = some code ∧ t = takeReject code s) ∨
      (firstFailure (checksOf i s) = none ∧ runOf i s = .next t) := by
  rw [exec_eq_guarded, guarded_eq_next]

/-- A step with a descriptor pending takes it from the queue and issues it. -/
theorem step_command {s : State} {d : List Byte} {rest : List HostAction}
    (h : s.pending = .command d :: rest) : step s = issue d { s with pending := rest } := by
  simp only [step, takeAction, h, hostAct]

/-- Everything issuing a descriptor can do: an illegal one is rejected, a legal one is its command. -/
theorem issue_eq_next {d : List Byte} {s t : State} :
    issue d s = .next t ↔
      (∃ e, decode s.build.keyLen d = .error e ∧ t = takeReject .illegalCmd s) ∨
      (∃ i, decode s.build.keyLen d = .ok i ∧ exec i s = .next t) := by
  unfold issue
  cases h : decode s.build.keyLen d with
  | ok i => simp
  | error e => simp [eq_comm]

/-! What each command leaves once every check has passed, in full. -/

theorem runOf_init {s t : State} {key : List Byte} :
    runOf (.init key) s = .next t ↔ t = (s.loadKey (expand s.build.keyLen key)).setErr .ok :=
  acceptWith_eq_next

theorem runOf_initIv {s t : State} {key : List Byte} {iv : Block} :
    runOf (.initIv key iv) s = .next t ↔
      t = ((s.loadKey (expand s.build.keyLen key)).loadIv iv).setErr .ok :=
  acceptWith_eq_next

theorem runOf_setIv {s t : State} {iv : Block} :
    runOf (.setIv iv) s = .next t ↔ t = (s.loadIv iv).setErr .ok :=
  acceptWith_eq_next

theorem runOf_destroy {s t : State} : runOf .destroy s = .next t ↔ t = s.dispose.setErr .ok :=
  acceptWith_eq_next

theorem runOf_ecbEnc {s t : State} {ptr : BitVec 32} :
    runOf (.ecbEnc ptr) s = .next t ↔ ∃ rk, s.rk = some rk ∧
      t = (s.setBuf (ecbBlock (cipher s.build.keyLen.nr rk) ptr.toNat s.buf)).setErr .ok := by
  simp only [runOf, withSchedule_eq_next, acceptWith_eq_next]

theorem runOf_ecbDec {s t : State} {ptr : BitVec 32} :
    runOf (.ecbDec ptr) s = .next t ↔ ∃ rk, s.rk = some rk ∧
      t = (s.setBuf (ecbBlock (invCipher s.build.keyLen.nr rk) ptr.toNat s.buf)).setErr .ok := by
  simp only [runOf, withSchedule_eq_next, acceptWith_eq_next]

theorem runOf_cbcEnc {s t : State} {ptr len : BitVec 32} :
    runOf (.cbcEnc ptr len) s = .next t ↔ ∃ rk, s.rk = some rk ∧ ∃ cv, s.cv = some cv ∧
      ∃ l, l = cbcEncLoop (cipher s.build.keyLen.nr rk) ptr.toNat (len.toNat / 16) ⟨cv, s.buf⟩ ∧
        t = (s.streamed l.cv l.mem).setErr .ok := by
  simp only [runOf, withSchedule_eq_next, withChaining_eq_next, cbcFinish_eq_next, exists_eq_left]

theorem runOf_cbcDec {s t : State} {ptr len : BitVec 32} :
    runOf (.cbcDec ptr len) s = .next t ↔ ∃ rk, s.rk = some rk ∧ ∃ cv, s.cv = some cv ∧
      ∃ l, l = cbcDecLoop (invCipher s.build.keyLen.nr rk) ptr.toNat (len.toNat / 16) ⟨cv, s.buf⟩ ∧
        t = (s.streamed l.cv l.mem).setErr .ok := by
  simp only [runOf, withSchedule_eq_next, withChaining_eq_next, cbcFinish_eq_next, exists_eq_left]

theorem runOf_ctrXcrypt {s t : State} {ptr len : BitVec 32} :
    runOf (.ctrXcrypt ptr len) s = .next t ↔ ∃ rk, s.rk = some rk ∧ ∃ cv, s.cv = some cv ∧
      ∃ l, l = ctrLoop (cipher s.build.keyLen.nr rk) ptr.toNat len.toNat (ctrStart cv s.buf) ∧
        t = (s.streamed l.cv l.mem).setErr .ok := by
  simp only [runOf, withSchedule_eq_next, withChaining_eq_next, ctrFinish_eq_next, exists_eq_left]

/-- A command of an engine in order that passes its checks completes: RK and CV are written when it reads
them. -/
theorem runOf_completes {i : Instr} {s : State} (hi : EngineInv s) (h : firstFailure (checksOf i s) = none) :
    ∃ t, runOf i s = .next t := by
  have hrk : s.phase.hasKey = true → ∃ rk, s.rk = some rk := fun hp =>
    Option.isSome_iff_exists.1 (hi.rk_written.trans hp)
  have hcv : s.phase.hasChain = true → ∃ cv, s.cv = some cv := fun hp =>
    Option.isSome_iff_exists.1 (hi.cv_written.trans hp)
  have hkc : s.phase.hasChain = true → s.phase.hasKey = true := by cases s.phase <;> decide
  obtain ⟨-, hp, -, -⟩ := firstFailure_eq_none.1 h
  cases i with
  | init | initIv | setIv | destroy => exact ⟨_, acceptWith_eq_next.2 rfl⟩
  | ecbEnc | ecbDec =>
    obtain ⟨rk, hrk⟩ := hrk hp
    exact ⟨_, withSchedule_eq_next.2 ⟨rk, hrk, acceptWith_eq_next.2 rfl⟩⟩
  | cbcEnc | cbcDec =>
    obtain ⟨rk, hrk⟩ := hrk (hkc hp)
    obtain ⟨cv, hcv⟩ := hcv hp
    exact ⟨_, withSchedule_eq_next.2 ⟨rk, hrk, withChaining_eq_next.2 ⟨cv, hcv, cbcFinish_eq_next.2 rfl⟩⟩⟩
  | ctrXcrypt =>
    obtain ⟨rk, hrk⟩ := hrk (hkc hp)
    obtain ⟨cv, hcv⟩ := hcv hp
    exact ⟨_, withSchedule_eq_next.2 ⟨rk, hrk, withChaining_eq_next.2 ⟨cv, hcv, ctrFinish_eq_next.2 rfl⟩⟩⟩

/-- A command of an engine in order is accepted or rejected; it does not stop. -/
theorem exec_completes {i : Instr} {s : State} (hi : EngineInv s) : ∃ t, exec i s = .next t := by
  cases h : firstFailure (checksOf i s) with
  | none =>
    obtain ⟨t, ht⟩ := runOf_completes hi h
    exact ⟨t, exec_eq_next.2 (.inr ⟨h, ht⟩)⟩
  | some code => exact ⟨_, exec_eq_next.2 (.inl ⟨code, h, rfl⟩)⟩

/-- An accepted command leaves ERR = OK, STICKY, the build and the host's queue as they were. -/
theorem runOf_eq_next {i : Instr} {s t : State} (h : runOf i s = .next t) :
    t.err = .ok ∧ t.sticky = s.sticky ∧ t.build = s.build ∧ t.pending = s.pending := by
  cases i with
  | init => obtain rfl := runOf_init.1 h; simp
  | initIv => obtain rfl := runOf_initIv.1 h; simp
  | setIv => obtain rfl := runOf_setIv.1 h; simp
  | destroy => obtain rfl := runOf_destroy.1 h; simp
  | ecbEnc => obtain ⟨rk, -, rfl⟩ := runOf_ecbEnc.1 h; simp
  | ecbDec => obtain ⟨rk, -, rfl⟩ := runOf_ecbDec.1 h; simp
  | cbcEnc => obtain ⟨rk, -, cv, -, l, -, rfl⟩ := runOf_cbcEnc.1 h; simp
  | cbcDec => obtain ⟨rk, -, cv, -, l, -, rfl⟩ := runOf_cbcDec.1 h; simp
  | ctrXcrypt => obtain ⟨rk, -, cv, -, l, -, rfl⟩ := runOf_ctrXcrypt.1 h; simp

end Sys2Proof.Machine
end

