-- ==== Sys2Proof/Laws/Bytes.lean ====
section
/-!
SUPPORT. Byte sequences, words, blocks and counted loops: one lemma per accessor of Machine/Params.lean.
-/

namespace Sys2Proof

theorem byteAt_eq_getElem {x : List Byte} {k : Nat} (h : k < x.length) : byteAt x k = x[k] := by
  simp [byteAt, h]

theorem byteAt_append_left {x y : List Byte} {k : Nat} (h : k < x.length) :
    byteAt (x ++ y) k = byteAt x k := by
  simp [byteAt, List.getElem?_append_left h]

theorem byteAt_append_right {x y : List Byte} {k : Nat} (h : k < y.length) :
    byteAt (x ++ y) (x.length + k) = byteAt y k := by
  rw [byteAt_eq_getElem h, byteAt_eq_getElem (by simp [h])]
  simp

theorem byteAt_cons_succ {b : Byte} {x : List Byte} {k : Nat} (h : k < x.length) :
    byteAt (b :: x) (k + 1) = byteAt x k := by
  rw [byteAt_eq_getElem h, byteAt_eq_getElem (by simp [h])]
  simp

theorem byteAt_cons_zero (b : Byte) (x : List Byte) : byteAt (b :: x) 0 = b := rfl

@[simp] theorem Word.toList_length (w : Word) : w.toList.length = 4 := rfl

@[simp] theorem Block.toList_length (b : Block) : b.toList.length = 16 := rfl

@[simp] theorem KeyLen.nk_ne_zero (kl : KeyLen) : kl.nk ≠ 0 := by cases kl <;> decide

theorem KeyLen.keyBytes_eq (kl : KeyLen) : kl.keyBytes = 4 * kl.nk := by cases kl <;> rfl

theorem KeyLen.nk_le_rkWords (kl : KeyLen) : kl.nk ≤ kl.rkWords := by cases kl <;> decide

/-- Induction over the sixteen indices of a block. -/
theorem forall_lt_sixteen {P : Nat → Prop} (h0 : P 0) (h1 : P 1) (h2 : P 2) (h3 : P 3) (h4 : P 4)
    (h5 : P 5) (h6 : P 6) (h7 : P 7) (h8 : P 8) (h9 : P 9) (h10 : P 10) (h11 : P 11) (h12 : P 12)
    (h13 : P 13) (h14 : P 14) (h15 : P 15) {k : Nat} (hk : k < 16) : P k := by
  interval_cases k <;> assumption

theorem Block.byte_ofFn (f : Nat → Byte) {k : Nat} (h : k < 16) : (Block.ofFn f).byte k = f k :=
  forall_lt_sixteen (P := fun k => (Block.ofFn f).byte k = f k) rfl rfl rfl rfl rfl rfl rfl rfl
    rfl rfl rfl rfl rfl rfl rfl rfl h

theorem Block.byte_xor (x y : Block) {k : Nat} (h : k < 16) :
    (x.xor y).byte k = x.byte k ^^^ y.byte k :=
  forall_lt_sixteen (P := fun k => (x.xor y).byte k = x.byte k ^^^ y.byte k) rfl rfl rfl rfl rfl rfl
    rfl rfl rfl rfl rfl rfl rfl rfl rfl rfl h

theorem Block.toList_getElem (b : Block) {k : Nat} (h : k < b.toList.length) :
    b.toList[k] = b.byte k := (byteAt_eq_getElem h).symm

/-- Two blocks with the same sixteen bytes are equal. -/
theorem Block.ext_byte {x y : Block} (h : ∀ k, k < 16 → x.byte k = y.byte k) : x = y := by
  ext1 <;> ext1
  · exact h 0 (by decide)
  · exact h 1 (by decide)
  · exact h 2 (by decide)
  · exact h 3 (by decide)
  · exact h 4 (by decide)
  · exact h 5 (by decide)
  · exact h 6 (by decide)
  · exact h 7 (by decide)
  · exact h 8 (by decide)
  · exact h 9 (by decide)
  · exact h 10 (by decide)
  · exact h 11 (by decide)
  · exact h 12 (by decide)
  · exact h 13 (by decide)
  · exact h 14 (by decide)
  · exact h 15 (by decide)

theorem Block.byte_blockAt (x : List Byte) (o : Nat) {k : Nat} (h : k < 16) :
    (blockAt x o).byte k = byteAt x (o + k) := Block.byte_ofFn _ h

@[simp] theorem Block.ofFn_byte (b : Block) : Block.ofFn b.byte = b :=
  Block.ext_byte fun _ h => Block.byte_ofFn _ h

@[simp] theorem Block.xor_xor_cancel (x y : Block) : (x.xor y).xor y = x := by
  ext1 <;> ext1 <;> simp [Block.xor, Word.xor]

@[simp] theorem forUp_zero {σ : Type} (a : Nat) (body : Nat → σ → σ) (s : σ) :
    forUp a 0 body s = s := rfl

theorem forUp_succ {σ : Type} (a n : Nat) (body : Nat → σ → σ) (s : σ) :
    forUp a (n + 1) body s = body (a + n) (forUp a n body s) := rfl

/-- A loop cut in two at any index. -/
theorem forUp_append {σ : Type} (a m n : Nat) (body : Nat → σ → σ) (s : σ) :
    forUp a (m + n) body s = forUp (a + m) n body (forUp a m body s) := by
  induction n with
  | zero => rfl
  | succ n ih => rw [← Nat.add_assoc, forUp_succ, ih, forUp_succ, Nat.add_assoc]

/-- A loop whose bodies agree on the indices it takes. -/
theorem forUp_congr {σ : Type} {a n : Nat} {f g : Nat → σ → σ} {s : σ}
    (h : ∀ k, k < n → ∀ t, f (a + k) t = g (a + k) t) : forUp a n f s = forUp a n g s := by
  induction n with
  | zero => rfl
  | succ n ih =>
    rw [forUp_succ, forUp_succ, ih fun k hk t => h k (Nat.lt_succ_of_lt hk) t, h n (Nat.lt_succ_self n)]

/-- What the loop's body keeps, given how far the loop has come, the loop keeps. -/
theorem forUp_invariant {σ : Type} (P : Nat → σ → Prop) {a n : Nat} {body : Nat → σ → σ} {s : σ}
    (h0 : P 0 s) (hs : ∀ k t, k < n → P k t → P (k + 1) (body (a + k) t)) :
    P n (forUp a n body s) := by
  induction n with
  | zero => exact h0
  | succ n ih =>
    exact hs n _ (Nat.lt_succ_self n) (ih fun k t hk => hs k t (Nat.lt_succ_of_lt hk))

/-- A loop downwards undoes a loop upwards whose every body it undoes. -/
theorem forDown_forUp {σ : Type} {a n : Nat} {f g : Nat → σ → σ} (h : ∀ k s, g k (f k s) = s) (s : σ) :
    forDown a n g (forUp a n f s) = s := by
  induction n generalizing s with
  | zero => rfl
  | succ n ih => simp only [forUp, forDown, h, ih]

/-- A loop upwards undoes a loop downwards whose every body it undoes. -/
theorem forUp_forDown {σ : Type} {a n : Nat} {f g : Nat → σ → σ} (h : ∀ k s, f k (g k s) = s) (s : σ) :
    forUp a n f (forDown a n g s) = s := by
  induction n generalizing s with
  | zero => rfl
  | succ n ih => simp only [forUp, forDown, h, ih]

end Sys2Proof
end

