-- ==== Sys2Proof/Laws/Memory.lean ====
section
/-!
SUPPORT. BUF as data: every memory operation keeps the canonical form and the address bound, a read after a
write, and equality of canonical memories by their reads.
-/

namespace Sys2Proof.Machine

theorem Memory.wfFrom_cons {lo x : Nat} {v : Byte} {m : Memory} :
    Memory.wfFrom lo ((x, v) :: m) = true ↔
      lo ≤ x ∧ v ≠ blankByte ∧ Memory.wfFrom (x + 1) m = true := by
  simp [Memory.wfFrom, and_assoc]

theorem Memory.wfFrom_mono {lo lo' : Nat} (h : lo' ≤ lo) :
    ∀ {m : Memory}, Memory.wfFrom lo m = true → Memory.wfFrom lo' m = true
  | [], _ => rfl
  | (_, _) :: _, hm => by
    rw [Memory.wfFrom_cons] at hm ⊢
    exact ⟨Nat.le_trans h hm.1, hm.2⟩

/-- Below the first listed address everything is blank. -/
theorem Memory.read_below {lo a : Nat} (ha : a < lo) :
    ∀ {m : Memory}, Memory.wfFrom lo m = true → m.read a = blankByte
  | [], _ => rfl
  | (x, v) :: m, hm => by
    rw [Memory.wfFrom_cons] at hm
    have hx : x ≠ a := by omega
    simp only [Memory.read, hx, if_false]
    exact Memory.read_below (by omega) hm.2.2

theorem Memory.write_wfFrom {lo a : Nat} (v : Byte) (ha : lo ≤ a) :
    ∀ {m : Memory}, Memory.wfFrom lo m = true → Memory.wfFrom lo (m.write a v) = true
  | [], _ => by
    by_cases hv : v = blankByte
    · simp [Memory.write, hv, Memory.wfFrom]
    · simp [Memory.write, hv, Memory.wfFrom, ha]
  | (x, w) :: m, hm => by
    rw [Memory.wfFrom_cons] at hm
    obtain ⟨hx, hw, hm⟩ := hm
    simp only [Memory.write]
    split
    · split
      · exact Memory.wfFrom_cons.2 ⟨hx, hw, hm⟩
      · exact Memory.wfFrom_cons.2 ⟨ha, ‹_›, Memory.wfFrom_cons.2 ⟨by omega, hw, hm⟩⟩
    · split
      · split
        · exact Memory.wfFrom_mono (by omega) hm
        · exact Memory.wfFrom_cons.2 ⟨ha, ‹_›, by subst_vars; exact hm⟩
      · exact Memory.wfFrom_cons.2 ⟨hx, hw, Memory.write_wfFrom v (by omega) hm⟩

/-- A write keeps the canonical form. -/
theorem Memory.write_wf {m : Memory} (h : m.wf = true) (a : Nat) (v : Byte) :
    (m.write a v).wf = true := Memory.write_wfFrom v (Nat.zero_le a) h

theorem Memory.read_write_from {lo a : Nat} (v : Byte) (b : Nat) :
    ∀ {m : Memory}, Memory.wfFrom lo m = true →
      (m.write a v).read b = if b = a then v else m.read b
  | [], _ => by
    by_cases hv : v = blankByte
    · simp [Memory.write, hv, Memory.read]
    · simp only [Memory.write, hv, if_false, Memory.read]
      by_cases hb : b = a
      · simp [hb]
      · simp [hb, Ne.symm hb]
  | (x, w) :: m, hm => by
    rw [Memory.wfFrom_cons] at hm
    obtain ⟨-, -, hm⟩ := hm
    simp only [Memory.write]
    split
    · rename_i hax
      have hxa : x ≠ a := by omega
      split
      · rename_i hv
        by_cases hb : b = a
        · subst hb
          simp only [if_true, Memory.read, hxa, if_false, hv]
          exact Memory.read_below (by omega) hm
        · simp [hb]
      · by_cases hb : b = a
        · simp [hb, Memory.read]
        · simp [hb, Ne.symm hb, Memory.read]
    · split
      · rename_i hax
        subst hax
        split
        · rename_i hv
          by_cases hb : b = a
          · subst hb
            simp only [if_true, hv]
            exact Memory.read_below (by omega) hm
          · simp [hb, Ne.symm hb, Memory.read]
        · by_cases hb : b = a
          · simp [hb, Memory.read]
          · simp [hb, Ne.symm hb, Memory.read]
      · rename_i hax
        simp only [Memory.read, Memory.read_write_from v b hm]
        by_cases hb : b = a
        · subst hb
          have hxb : x ≠ b := fun h => hax h.symm
          simp [hxb]
        · simp [hb]

/-- A read after a write: the written address gives the written byte, every other is as before. -/
theorem Memory.read_write {m : Memory} (h : m.wf = true) (a : Nat) (v : Byte) (b : Nat) :
    (m.write a v).read b = if b = a then v else m.read b := Memory.read_write_from v b h

theorem Memory.below_cons {n x : Nat} {v : Byte} {m : Memory} :
    Memory.below n ((x, v) :: m) = true ↔ x < n ∧ m.below n = true := by
  simp [Memory.below]

/-- A write below a bound keeps every listed address below it. -/
theorem Memory.write_below {n a : Nat} (v : Byte) (ha : a < n) :
    ∀ {m : Memory}, m.below n = true → (m.write a v).below n = true
  | [], _ => by
    by_cases hv : v = blankByte <;> simp [Memory.write, hv, Memory.below, ha]
  | (x, w) :: m, hm => by
    rw [Memory.below_cons] at hm
    simp only [Memory.write]
    split
    · split
      · exact Memory.below_cons.2 hm
      · exact Memory.below_cons.2 ⟨ha, Memory.below_cons.2 hm⟩
    · split
      · split
        · exact hm.2
        · exact Memory.below_cons.2 ⟨ha, hm.2⟩
      · exact Memory.below_cons.2 ⟨hm.1, Memory.write_below v ha hm.2⟩

/-- Canonical memories that read alike are the same list. -/
theorem Memory.ext_from {lo : Nat} : ∀ {m m' : Memory}, Memory.wfFrom lo m = true →
    Memory.wfFrom lo m' = true → (∀ a, m.read a = m'.read a) → m = m'
  | [], [], _, _, _ => rfl
  | [], (x, v) :: m', _, h', h => by
    rw [Memory.wfFrom_cons] at h'
    exact absurd (by simpa [Memory.read] using (h x).symm) h'.2.1
  | (x, v) :: m, [], h', _, h => by
    rw [Memory.wfFrom_cons] at h'
    exact absurd (by simpa [Memory.read] using h x) h'.2.1
  | (x, v) :: m, (y, w) :: m', hm, hm', h => by
    rw [Memory.wfFrom_cons] at hm hm'
    obtain ⟨-, hv, hm⟩ := hm
    obtain ⟨-, hw, hm'⟩ := hm'
    have hxy : x = y := by
      rcases Nat.lt_trichotomy x y with hlt | heq | hgt
      · have hx := h x
        have hyx : y ≠ x := by omega
        simp only [Memory.read, if_true, hyx, if_false] at hx
        exact absurd (hx.trans (Memory.read_below (by omega) hm')) hv
      · exact heq
      · have hy := h y
        have hxy : x ≠ y := by omega
        simp only [Memory.read, if_true, hxy, if_false] at hy
        exact absurd (hy.symm.trans (Memory.read_below (by omega) hm)) hw
    subst hxy
    have hvw : v = w := by simpa [Memory.read] using h x
    subst hvw
    have htail : m = m' := Memory.ext_from hm hm' fun a => by
      by_cases ha : x = a
      · subst ha
        rw [Memory.read_below (by omega) hm, Memory.read_below (by omega) hm']
      · simpa [Memory.read, ha] using h a
    rw [htail]

/-- Equal reads make canonical memories equal data. -/
theorem Memory.ext {m m' : Memory} (hm : m.wf = true) (hm' : m'.wf = true)
    (h : ∀ a, m.read a = m'.read a) : m = m' := Memory.ext_from hm hm' h

theorem Memory.writeBytes_wf {m : Memory} (h : m.wf = true) (a : Nat) (l : List Byte) :
    (m.writeBytes a l).wf = true := by
  induction l generalizing m a with
  | nil => exact h
  | cons v vs ih => exact ih (Memory.write_wf h a v) (a + 1)

theorem Memory.writeBytes_below {n : Nat} {m : Memory} (h : m.below n = true) (a : Nat) (l : List Byte)
    (ha : a + l.length ≤ n) : (m.writeBytes a l).below n = true := by
  induction l generalizing m a with
  | nil => exact h
  | cons v vs ih =>
    simp only [List.length_cons] at ha
    exact ih (Memory.write_below v (by omega) h) (a + 1) (by omega)

theorem Memory.read_writeBytes_out {m : Memory} (h : m.wf = true) (a : Nat) (l : List Byte) (b : Nat)
    (hb : b < a ∨ a + l.length ≤ b) : (m.writeBytes a l).read b = m.read b := by
  induction l generalizing m a with
  | nil => rfl
  | cons v vs ih =>
    simp only [List.length_cons] at hb
    have hba : b ≠ a := by omega
    rw [Memory.writeBytes, ih (Memory.write_wf h a v) (a + 1) (by omega), Memory.read_write h]
    simp [hba]

theorem Memory.read_writeBytes_in {m : Memory} (h : m.wf = true) (a : Nat) (l : List Byte) (k : Nat)
    (hk : k < l.length) : (m.writeBytes a l).read (a + k) = byteAt l k := by
  induction l generalizing m a k with
  | nil => simp at hk
  | cons v vs ih =>
    cases k with
    | zero =>
      rw [Memory.writeBytes, Memory.read_writeBytes_out (Memory.write_wf h a v) _ _ _ (by omega),
        Memory.read_write h]
      simp [byteAt_cons_zero]
    | succ k =>
      simp only [List.length_cons, Nat.add_lt_add_iff_right] at hk
      rw [Memory.writeBytes, byteAt_cons_succ hk, ← ih (Memory.write_wf h a v) (a + 1) k hk]
      congr 1
      omega

theorem Memory.writeBlock_wf {m : Memory} (h : m.wf = true) (a : Nat) (b : Block) :
    (m.writeBlock a b).wf = true := Memory.writeBytes_wf h a _

theorem Memory.writeBlock_below {n : Nat} {m : Memory} (h : m.below n = true) (a : Nat) (b : Block)
    (ha : a + 16 ≤ n) : (m.writeBlock a b).below n = true :=
  Memory.writeBytes_below h a _ (by simpa using ha)

theorem Memory.read_writeBlock_out {m : Memory} (h : m.wf = true) (a : Nat) (b : Block) (x : Nat)
    (hx : x < a ∨ a + 16 ≤ x) : (m.writeBlock a b).read x = m.read x :=
  Memory.read_writeBytes_out h a _ x (by simpa using hx)

theorem Memory.read_writeBlock_in {m : Memory} (h : m.wf = true) (a : Nat) (b : Block) {k : Nat}
    (hk : k < 16) : (m.writeBlock a b).read (a + k) = b.byte k :=
  Memory.read_writeBytes_in h a _ k (by simpa using hk)

theorem Memory.byte_readBlock (m : Memory) (a : Nat) {k : Nat} (hk : k < 16) :
    (m.readBlock a).byte k = m.read (a + k) := Block.byte_ofFn _ hk

/-- Reading the block just written. -/
theorem Memory.readBlock_writeBlock {m : Memory} (h : m.wf = true) (a : Nat) (b : Block) :
    (m.writeBlock a b).readBlock a = b :=
  Block.ext_byte fun k hk => by rw [Memory.byte_readBlock _ _ hk, Memory.read_writeBlock_in h a b hk]

/-- Reading a block that does not overlap the one written. -/
theorem Memory.readBlock_writeBlock_out {m : Memory} (h : m.wf = true) (a : Nat) (b : Block) (x : Nat)
    (hx : x + 16 ≤ a ∨ a + 16 ≤ x) : (m.writeBlock a b).readBlock x = m.readBlock x :=
  Block.ext_byte fun k hk => by
    rw [Memory.byte_readBlock _ _ hk, Memory.byte_readBlock _ _ hk,
      Memory.read_writeBlock_out h a b _ (by omega)]

end Sys2Proof.Machine
end

