-- ==== Sys2Proof/Laws/Modes.lean ====
section
/-!
SUPPORT. The block and byte operations of the mode controllers: what one iteration does, and that the loops
keep BUF canonical, inside its addresses and unchanged outside the range.
-/

namespace Sys2Proof.Machine

theorem Range.covers_eq_false {r : Range} {a : Nat} :
    r.covers a = false ↔ a < r.start ∨ r.start + r.size ≤ a := by
  simp only [Range.covers, Bool.and_eq_false_iff, decide_eq_false_iff_not]
  omega

theorem Range.fits_iff {r : Range} {b : Build} : r.fits b = true ↔ r.start + r.size ≤ b.bufSize := by
  simp [Range.fits]

theorem Range.fits_eq_false {r : Range} {b : Build} :
    r.fits b = false ↔ b.bufSize < r.start + r.size := by
  simp [Range.fits]

@[simp] theorem blockRange_start (ptr : BitVec 32) : (blockRange ptr).start = ptr.toNat := rfl

@[simp] theorem blockRange_size (ptr : BitVec 32) : (blockRange ptr).size = 16 := rfl

@[simp] theorem spanRange_start (ptr len : BitVec 32) : (spanRange ptr len).start = ptr.toNat := rfl

@[simp] theorem spanRange_size (ptr len : BitVec 32) : (spanRange ptr len).size = len.toNat := rfl

/-! ECB: one block. -/

theorem ecbBlock_wf {m : Memory} (h : m.wf = true) (f : Block → Block) (p : Nat) :
    (ecbBlock f p m).wf = true := Memory.writeBlock_wf h p _

theorem ecbBlock_below {n p : Nat} {m : Memory} (h : m.below n = true) (f : Block → Block)
    (hp : p + 16 ≤ n) : (ecbBlock f p m).below n = true := Memory.writeBlock_below h p _ hp

theorem ecbBlock_readBlock {m : Memory} (h : m.wf = true) (f : Block → Block) (p : Nat) :
    (ecbBlock f p m).readBlock p = f (m.readBlock p) := Memory.readBlock_writeBlock h p _

theorem ecbBlock_read_out {m : Memory} (h : m.wf = true) (f : Block → Block) (p : Nat) {a : Nat}
    (ha : a < p ∨ p + 16 ≤ a) : (ecbBlock f p m).read a = m.read a :=
  Memory.read_writeBlock_out h p _ a ha

/-! What a loop's BUF keeps: it is canonical, it stays below a bound, and it reads as before outside the
range `[p, p+n)`. -/

/-- BUF after some iterations of a loop that started from `m0` and has worked through `[p, p+n)`. -/
structure Worked (b p n : Nat) (m0 m : Memory) : Prop where
  wf : m.wf = true
  below : m0.below b = true → p + n ≤ b → m.below b = true
  out : ∀ a, a < p ∨ p + n ≤ a → m.read a = m0.read a

theorem Worked.refl {m : Memory} (h : m.wf = true) (b p : Nat) : Worked b p 0 m m :=
  ⟨h, fun hb _ => hb, fun _ _ => rfl⟩

theorem Worked.readBlock_out {b p n a : Nat} {m0 m : Memory} (h : Worked b p n m0 m)
    (ha : a + 16 ≤ p ∨ p + n ≤ a) : m.readBlock a = m0.readBlock a :=
  Block.ext_byte fun k hk => by
    rw [Memory.byte_readBlock _ _ hk, Memory.byte_readBlock _ _ hk, h.out _ (by omega)]

theorem Worked.writeBlock {b p n : Nat} {m0 m : Memory} (h : Worked b p n m0 m) (y : Block) :
    Worked b p (n + 16) m0 (m.writeBlock (p + n) y) where
  wf := Memory.writeBlock_wf h.wf _ _
  below hb hp := Memory.writeBlock_below (h.below hb (by omega)) _ _ (by omega)
  out a ha := by rw [Memory.read_writeBlock_out h.wf _ _ _ (by omega), h.out a (by omega)]

theorem Worked.write {b p n : Nat} {m0 m : Memory} (h : Worked b p n m0 m) (v : Byte) :
    Worked b p (n + 1) m0 (m.write (p + n) v) where
  wf := Memory.write_wf h.wf _ _
  below hb hp := Memory.write_below _ (by omega) (h.below hb (by omega))
  out a ha := by
    have hne : a ≠ p + n := by omega
    rw [Memory.read_write h.wf, if_neg hne, h.out a (by omega)]

theorem cbcEncLoop_worked (f : Block → Block) (b p n : Nat) (t : CbcLoop) (h : t.mem.wf = true) :
    Worked b p (16 * n) t.mem (cbcEncLoop f p n t).mem :=
  forUp_invariant (fun k (u : CbcLoop) => Worked b p (16 * k) t.mem u.mem) (Worked.refl h b p)
    fun k u _ hu => by simpa [Nat.mul_succ, cbcEncBlock] using hu.writeBlock _

theorem cbcDecLoop_worked (g : Block → Block) (b p n : Nat) (t : CbcLoop) (h : t.mem.wf = true) :
    Worked b p (16 * n) t.mem (cbcDecLoop g p n t).mem :=
  forUp_invariant (fun k (u : CbcLoop) => Worked b p (16 * k) t.mem u.mem) (Worked.refl h b p)
    fun k u _ hu => by simpa [Nat.mul_succ, cbcDecBlock] using hu.writeBlock _

@[simp] theorem ctrRefill_mem (f : Block → Block) (t : CtrLoop) : (ctrRefill f t).mem = t.mem := by
  unfold ctrRefill
  split <;> rfl

theorem ctrLoop_worked (f : Block → Block) (b p n : Nat) (t : CtrLoop) (h : t.mem.wf = true) :
    Worked b p n t.mem (ctrLoop f p n t).mem :=
  forUp_invariant (fun k (u : CtrLoop) => Worked b p k t.mem u.mem) (Worked.refl h b p)
    fun k u _ hu => by simpa [ctrByte, ctrXorByte] using hu.write _

/-! Everything the loops compute. -/

/-- CBC_ENC's loop: each block becomes `f` of itself XOR the block before it as written, or CV for the first;
CV becomes the last block written. -/
theorem cbcEncLoop_spec (f : Block → Block) (p : Nat) (cv : Block) {m : Memory} (hm : m.wf = true) (n : Nat) :
    let t := cbcEncLoop f p n ⟨cv, m⟩
    (∀ j, j < n → t.mem.readBlock (p + 16 * j) = f ((m.readBlock (p + 16 * j)).xor
      (if j = 0 then cv else t.mem.readBlock (p + 16 * (j - 1))))) ∧
    t.cv = (if n = 0 then cv else t.mem.readBlock (p + 16 * (n - 1))) := by
  induction n with
  | zero => simp [cbcEncLoop]
  | succ n ih =>
    have hw := cbcEncLoop_worked f 0 p n ⟨cv, m⟩ hm
    simp only [cbcEncLoop, forUp_succ, Nat.zero_add] at ih hw ⊢
    generalize forUp 0 n (cbcEncBlock f p) ⟨cv, m⟩ = t at ih hw
    obtain ⟨ih1, ih2⟩ := ih
    have hin : t.mem.readBlock (p + 16 * n) = m.readBlock (p + 16 * n) := hw.readBlock_out (by omega)
    have hkeep (j : Nat) (hj : j < n) (y : Block) :
        (t.mem.writeBlock (p + 16 * n) y).readBlock (p + 16 * j) = t.mem.readBlock (p + 16 * j) :=
      Memory.readBlock_writeBlock_out hw.wf _ _ _ (by omega)
    simp only [cbcEncBlock]
    refine ⟨fun j hj => ?_, by
      rw [if_neg (Nat.succ_ne_zero n), Nat.add_sub_cancel, Memory.readBlock_writeBlock hw.wf]⟩
    obtain rfl | hjn := Nat.eq_or_lt_of_le (Nat.le_of_lt_succ hj)
    · rw [Memory.readBlock_writeBlock hw.wf, hin, ih2]
      by_cases h0 : j = 0
      · simp [h0]
      · rw [if_neg h0, if_neg h0, hkeep (j - 1) (by omega)]
    · rw [hkeep j hjn, ih1 j hjn]
      by_cases h0 : j = 0
      · simp [h0]
      · rw [if_neg h0, if_neg h0, hkeep (j - 1) (by omega)]

/-- CBC_DEC's loop: each block becomes `g` of itself XOR the block that stood before it, or CV for the first;
CV becomes the last block as it stood. -/
theorem cbcDecLoop_spec (g : Block → Block) (p : Nat) (cv : Block) {m : Memory} (hm : m.wf = true) (n : Nat) :
    let t := cbcDecLoop g p n ⟨cv, m⟩
    (∀ j, j < n → t.mem.readBlock (p + 16 * j) = (g (m.readBlock (p + 16 * j))).xor
      (if j = 0 then cv else m.readBlock (p + 16 * (j - 1)))) ∧
    t.cv = (if n = 0 then cv else m.readBlock (p + 16 * (n - 1))) := by
  induction n with
  | zero => simp [cbcDecLoop]
  | succ n ih =>
    have hw := cbcDecLoop_worked g 0 p n ⟨cv, m⟩ hm
    simp only [cbcDecLoop, forUp_succ, Nat.zero_add] at ih hw ⊢
    generalize forUp 0 n (cbcDecBlock g p) ⟨cv, m⟩ = t at ih hw
    obtain ⟨ih1, ih2⟩ := ih
    have hin : t.mem.readBlock (p + 16 * n) = m.readBlock (p + 16 * n) := hw.readBlock_out (by omega)
    simp only [cbcDecBlock]
    refine ⟨fun j hj => ?_, by rw [if_neg (Nat.succ_ne_zero n), Nat.add_sub_cancel, hin]⟩
    obtain rfl | hjn := Nat.eq_or_lt_of_le (Nat.le_of_lt_succ hj)
    · rw [Memory.readBlock_writeBlock hw.wf, hin, ih2]
    · rw [Memory.readBlock_writeBlock_out hw.wf _ _ _ (by omega), ih1 j hjn]

/-- CTR_XCRYPT's loop: byte i is XORed with byte i mod 16 of `f` of the counter incremented i / 16 times; the
counter has been incremented once per started block; the keystream block and its index are the last ones'. -/
theorem ctrLoop_spec (f : Block → Block) (p : Nat) (cv : Block) {m : Memory} (hm : m.wf = true) (n : Nat) :
    let t := ctrLoop f p n (ctrStart cv m)
    (∀ i, i < n → t.mem.read (p + i) = m.read (p + i) ^^^ (f (ctrInc^[i / 16] cv)).byte (i % 16)) ∧
    t.cv = ctrInc^[(n + 15) / 16] cv ∧ (0 < n → t.ks = f (ctrInc^[(n - 1) / 16] cv)) ∧
    t.bi = (if n % 16 = 0 then 16 else n % 16) := by
  induction n with
  | zero => simp [ctrLoop, ctrStart]
  | succ n ih =>
    have hw := ctrLoop_worked f 0 p n (ctrStart cv m) hm
    simp only [ctrLoop, forUp_succ, Nat.zero_add] at ih hw ⊢
    generalize forUp 0 n (ctrByte f p) (ctrStart cv m) = t at ih hw
    obtain ⟨i1, i2, i3, i4⟩ := ih
    have hr : t.mem.read (p + n) = m.read (p + n) := hw.out _ (by omega)
    have key : (ctrRefill f t).ks = f (ctrInc^[n / 16] cv) ∧
        (ctrRefill f t).cv = ctrInc^[(n + 16) / 16] cv ∧ (ctrRefill f t).bi = n % 16 := by
      unfold ctrRefill
      by_cases h : n % 16 = 0
      · rw [if_pos (by rw [i4, if_pos h])]
        have e1 : (n + 15) / 16 = n / 16 := by omega
        have e2 : (n + 16) / 16 = n / 16 + 1 := by omega
        simp only [i2, e1, e2, h, Function.iterate_succ_apply', and_self]
      · rw [if_neg (by rw [i4, if_neg h]; omega), i3 (by omega), i2, i4, if_neg h,
          show (n - 1) / 16 = n / 16 by omega, show (n + 15) / 16 = (n + 16) / 16 by omega]
        simp
    obtain ⟨k1, k2, k3⟩ := key
    simp only [ctrByte, ctrXorByte, k1, k2, k3, ctrRefill_mem]
    refine ⟨fun i hi => ?_, trivial, fun _ => by simp, by split <;> omega⟩
    rw [Memory.read_write hw.wf]
    by_cases hin : i = n
    · subst hin
      simp [hr]
    · rw [if_neg (by omega), i1 i (by omega)]

/-! The key schedule. -/

theorem expand_loop_length (nk n : Nat) (key : List Byte) :
    (forUp nk n (fun i rk => rk ++ (scheduleWord nk rk i).toList) key).length = key.length + 4 * n := by
  induction n with
  | zero => simp
  | succ n ih => rw [forUp_succ, List.length_append, ih, Word.toList_length]; omega

/-- The key is the beginning of the schedule. -/
theorem key_prefix_expand_loop (nk n : Nat) (key : List Byte) :
    key <+: forUp nk n (fun i rk => rk ++ (scheduleWord nk rk i).toList) key := by
  induction n with
  | zero => exact List.prefix_rfl
  | succ n ih => exact ih.trans (List.prefix_append _ _)

end Sys2Proof.Machine
end

