-- ==== Sys2Proof/Laws/PerInstr.lean ====
section
/-!
SUPPORT. Statements about every instruction as syntax, one lemma per constructor.
-/

namespace Sys2Proof.Laws

/-- R61, R63, R64: the descriptor of a well-formed instruction begins with its opcode, has the length of its
format, and the decoder reads that format from the opcode. -/
def EncodingShape.Statement (i : Instr) : Prop :=
  ∀ kl : KeyLen, i.wf kl = true →
    (encode i).head? = some i.opcode ∧ (encode i).length = i.format.bytes kl ∧
      formatOf i.opcode = some i.format

theorem EncodingShape.init (key : List Byte) : EncodingShape.Statement (.init key) := by
  intro kl h
  have h : key.length = kl.keyBytes := by simpa [Instr.wf] using h
  exact ⟨rfl, by simp [encode, Instr.operandBytes, Instr.format, Format.bytes, h, Nat.add_comm], rfl⟩

theorem EncodingShape.initIv (key : List Byte) (iv : Block) :
    EncodingShape.Statement (.initIv key iv) := by
  intro kl h
  have h : key.length = kl.keyBytes := by simpa [Instr.wf] using h
  refine ⟨rfl, ?_, rfl⟩
  simp only [encode, Instr.operandBytes, Instr.format, Format.bytes, List.length_cons, List.length_append, h,
    Block.toList_length]
  omega

theorem EncodingShape.setIv (iv : Block) : EncodingShape.Statement (.setIv iv) :=
  fun _ _ => ⟨rfl, rfl, rfl⟩

theorem EncodingShape.destroy : EncodingShape.Statement .destroy := fun _ _ => ⟨rfl, rfl, rfl⟩

theorem EncodingShape.ecbEnc (ptr : BitVec 32) : EncodingShape.Statement (.ecbEnc ptr) :=
  fun _ _ => ⟨rfl, rfl, rfl⟩

theorem EncodingShape.ecbDec (ptr : BitVec 32) : EncodingShape.Statement (.ecbDec ptr) :=
  fun _ _ => ⟨rfl, rfl, rfl⟩

theorem EncodingShape.cbcEnc (ptr len : BitVec 32) : EncodingShape.Statement (.cbcEnc ptr len) :=
  fun _ _ => ⟨rfl, rfl, rfl⟩

theorem EncodingShape.cbcDec (ptr len : BitVec 32) : EncodingShape.Statement (.cbcDec ptr len) :=
  fun _ _ => ⟨rfl, rfl, rfl⟩

theorem EncodingShape.ctrXcrypt (ptr len : BitVec 32) : EncodingShape.Statement (.ctrXcrypt ptr len) :=
  fun _ _ => ⟨rfl, rfl, rfl⟩

end Sys2Proof.Laws
end

