-- ==== Sys2Proof/Tests/Slice0.lean ====
section
/-!
SUPPORT. Tests. Every expected value is one the spec writes out: the worked encodings of R70, the worked
examples of R80 to R161, and the vectors of spec/95_test_vectors.md, named in each test's name or docstring.
The last part gives each obligation with hypotheses a state and operands that meet them all.
-/

namespace Sys2Proof.Tests

-- One theorem at a time: the evaluations below otherwise wait for each other on a thread each.
set_option Elab.async false

open Sys2Proof Sys2Proof.Machine

/-! ### Helpers -/

/-- `n` bytes of a hex literal, first byte first (R11). -/
def hx (n v : Nat) : List Byte := (List.range n).map fun k => BitVec.ofNat 8 (v / 256 ^ (n - 1 - k))

/-- A block from a hex literal. -/
def blk (v : Nat) : Block := Block.ofFn fun k => BitVec.ofNat 8 (v / 256 ^ (15 - k))

/-- A word from its four bytes as one hex literal. -/
def wd (v : Nat) : Word :=
  ⟨BitVec.ofNat 8 (v / 2 ^ 24), BitVec.ofNat 8 (v / 2 ^ 16), BitVec.ofNat 8 (v / 2 ^ 8), BitVec.ofNat 8 v⟩

/-- The state a step or a meaning leaves, if it leaves one. -/
def nextOf : Result → Option State
  | .next t => some t
  | .fault _ => none
  | .refused _ => none

/-- The error code and the phase a meaning leaves. -/
def report (r : Result) : Option (ErrCode × Phase) := (nextOf r).map fun t => (t.err, t.phase)

/-- The key of vector K1. -/
def key1 : List Byte := hx 16 0x2b7e151628aed2a6abf7158809cf4f3c

/-- The schedule of vector K1, as the spec prints it. -/
def rk1 : List Byte :=
  hx 96 0x2b7e151628aed2a6abf7158809cf4f3ca0fafe1788542cb123a339392a6c7605f2c295f27a96b9435935807a7359f67f3d80477d4716fe3e1e237e446d7a883bef44a541a8525b7fb671253bdb0bad00d4d1c6f87c839d87caf2b8bc11f915bc
  ++ hx 80 0x6d88a37a110b3efddbf98641ca0093fd4e54f70e5f5fc9f384a64fb24ea6dc4fead27321b58dbad2312bf5607f8d292fac7766f319fadc2128d12941575c006ed014f9a8c9ee2589e13f0cc8b6630ca6

/-- The first block of the plaintext P. -/
def p1 : Block := blk 0x6bc1bee22e409f96e93d7e117393172a

/-- The iv of the CBC vectors. -/
def ivC : Block := blk 0x000102030405060708090a0b0c0d0e0f

/-- The starting counter of the CTR vectors. -/
def ivT : Block := blk 0xf0f1f2f3f4f5f6f7f8f9fafbfcfdfeff

/-- A build of KEYLEN 128 with all modes and BUF_SIZE 64, the build of section 9. -/
def b64 : Build := ⟨.k128, true, true, true, 64⟩

/-- The build b64 in a phase, with the schedule of K1 and a chaining value where the phase has them, and
P's first block at address `a`. -/
def at64 (p : Phase) (cv : Block) (a : Nat) : State where
  build := b64
  phase := p
  rk := if p.hasKey then some rk1 else none
  cv := if p.hasChain then some cv else none
  err := .ok
  sticky := false
  buf := Memory.writeBlock [] a p1
  pending := []

/-! ### WellFormed refuses each ill-formed term -/

theorem test_wf_build_ok : b64.wf = true ∧ Config.resetBuild.wf = true := by decide
theorem test_wf_build_no_mode : Build.wf ⟨.k128, false, false, false, 64⟩ = false := by decide
theorem test_wf_build_buf_small : Build.wf ⟨.k128, true, true, true, 15⟩ = false := by decide
theorem test_wf_build_buf_large : Build.wf ⟨.k128, true, true, true, 2 ^ 32 + 1⟩ = false := by decide
theorem test_wf_init_short : Instr.wf .k128 (.init (hx 15 0)) = false := by decide
theorem test_wf_init_other_keylen : Instr.wf .k192 (.init (hx 16 0)) = false := by decide
theorem test_wf_init_iv_long : Instr.wf .k256 (.initIv (hx 33 0) ivC) = false := by decide
theorem test_wf_init_ok : Instr.wf .k256 (.init (hx 32 0)) = true := by decide

/-! ### Decoding: the words of R70 and section 8, bit for bit -/

/-- X1. -/
theorem test_decode_init : decode .k128 (hx 17 0x012b7e151628aed2a6abf7158809cf4f3c) =
    .ok (.init key1) := by rfl
/-- X6. -/
theorem test_decode_init_iv :
    decode .k128 (hx 33 0x022b7e151628aed2a6abf7158809cf4f3c000102030405060708090a0b0c0d0e0f) =
      .ok (.initIv key1 ivC) := by rfl
/-- X7. -/
theorem test_decode_set_iv : decode .k128 (hx 17 0x03000102030405060708090a0b0c0d0e0f) =
    .ok (.setIv ivC) := by rfl
/-- X9. -/
theorem test_decode_destroy : decode .k256 [0x04] = .ok .destroy := by rfl
/-- X11, X13. -/
theorem test_decode_ecb_enc : decode .k192 [0x10, 0x00, 0x00, 0x00, 0x00] = .ok (.ecbEnc 0) ∧
    decode .k192 [0x10, 0xff, 0xff, 0xff, 0xff] = .ok (.ecbEnc 4294967295) := ⟨rfl, rfl⟩
/-- X12. -/
theorem test_decode_ecb_dec : decode .k128 [0x11, 0x00, 0x00, 0x00, 0xff] = .ok (.ecbDec 255) := by rfl
/-- X14. -/
theorem test_decode_cbc_enc : decode .k128 [0x20, 0x00, 0x00, 0x00, 0x10, 0x00, 0x00, 0x00, 0x40] =
    .ok (.cbcEnc 16 64) := by rfl
/-- X15. -/
theorem test_decode_cbc_dec : decode .k128 [0x21, 0x01, 0x02, 0x03, 0x04, 0x05, 0x06, 0x07, 0x08] =
    .ok (.cbcDec 0x01020304 0x05060708) := by rfl
/-- X16. -/
theorem test_decode_ctr_xcrypt : decode .k128 [0x30, 0x00, 0x00, 0x00, 0x14, 0x00, 0x00, 0x00, 0x0c] =
    .ok (.ctrXcrypt 20 12) := by rfl

/-- X4, X5, X8, X10, X17: wrong lengths. -/
theorem test_decode_wrong_length :
    decode .k128 (0x01 :: hx 24 0x8e73b0f7da0e6452c810f32b809079e562f8ead2522c6b7b) =
      .error (.wrongLength 0x01 17 25) ∧
    decode .k256 (0x01 :: key1) = .error (.wrongLength 0x01 33 17) ∧
    decode .k128 (hx 16 0x03000102030405060708090a0b0c0d0e) = .error (.wrongLength 0x03 17 16) ∧
    decode .k192 [0x04, 0x00] = .error (.wrongLength 0x04 1 2) ∧
    decode .k128 [0x30, 0x00, 0x00, 0x00, 0x14, 0x00, 0x00, 0x00] =
      .error (.wrongLength 0x30 9 8) := ⟨rfl, rfl, rfl, rfl, rfl⟩
/-- X18 to X23: unassigned opcodes and the empty descriptor. -/
theorem test_decode_unassigned :
    decode .k128 [0x00] = .error (.unknownOpcode 0x00) ∧
    decode .k128 [0x05] = .error (.unknownOpcode 0x05) ∧
    decode .k128 [0x12] = .error (.unknownOpcode 0x12) ∧
    decode .k128 (0x31 :: hx 8 0) = .error (.unknownOpcode 0x31) ∧
    decode .k128 [0xff] = .error (.unknownOpcode 0xff) ∧
    decode .k128 [] = .error .empty := ⟨rfl, rfl, rfl, rfl, rfl, rfl⟩
/-- R65: 247 opcode values are illegal. -/
theorem test_unassigned_opcodes :
    ((List.range 256).filter fun v => (formatOf (BitVec.ofNat 8 v)).isNone).length = 247 := by
  decide +kernel
/-- R70, the right column, from the left one. -/
theorem test_encode : encode (.cbcDec 32 32) = [0x21, 0, 0, 0, 0x20, 0, 0, 0, 0x20] ∧
    encode (.setIv ivC) = hx 17 0x03000102030405060708090a0b0c0d0e0f := ⟨rfl, rfl⟩
/-- The table gives a row only its opcode's bits; the operand bytes are then zeros. -/
theorem test_table_words :
    decodeTableWord 8 0x04 = some .destroy ∧ decodeTableWord 8 0x20 = some (.cbcEnc 0 0) ∧
    decodeTableWord 8 0x01 = some (.init (hx 16 0)) ∧ decodeTableWord 8 0x05 = none := by decide +kernel
/-- The word laid out by withFetchWord is what the next step runs. -/
theorem test_fetch_word : report (step (State.reset.withFetchWord 8 0x01)) = some (.ok, .keyexp) ∧
    report (step (State.reset.withFetchWord 8 0x10)) = some (.phase, .uninit) := by decide +kernel

/-! ### The pure units: sections 2 to 5 and 7 -/

theorem test_double : double 0x57 = 0xAE ∧ double 0x80 = 0x1B ∧ double 0xFF = 0xE5 ∧
    double 0x8D = 0x01 := by decide
theorem test_multiply : multiply 0x57 0x13 = 0xFE ∧ multiply 0x57 0x33 = 0xFE ∧
    multiply 0xFF 0x0D = 0x97 ∧ multiply 0x57 0x20 = 0x00 ∧ triple 0xBF = 0xDA := by decide
theorem test_sbox : sbox 0x53 = 0xED ∧ sbox 0x7F = 0xD2 ∧ sbox 0xCF = 0x8A ∧ sbox 0xFF = 0x16 ∧
    invSbox 0x00 = 0x52 ∧ invSbox 0xED = 0x53 := by decide
/-- The checksums of section 3. -/
theorem test_sbox_checksums :
    ((List.range 256).map fun v => v * (sbox (BitVec.ofNat 8 v)).toNat).sum % 65521 = 38046 ∧
    ((List.range 256).map fun v => v * (invSbox (BitVec.ofNat 8 v)).toNat).sum % 65521 = 38046 := by
  decide +kernel
/-- R104 to R106. -/
theorem test_schedule_steps : rotWord (wd 0x09cf4f3c) = wd 0xcf4f3c09 ∧
    subWord (wd 0xcf4f3c09) = wd 0x8a84eb01 ∧ addRcon (wd 0x8a84eb01) 1 = wd 0x8b84eb01 := by decide
/-- K1. -/
theorem test_expand_128 : expand .k128 key1 = rk1 := by decide +kernel
/-- K2: w(6), w(10) (no SubWord when Nk = 6) and w(51). -/
theorem test_expand_192 :
    let rk := expand .k192 (hx 24 0x8e73b0f7da0e6452c810f32b809079e562f8ead2522c6b7b)
    (wordAt rk 6, wordAt rk 10, wordAt rk 51, rk.length) =
      (wd 0xfe0c91f7, wd 0x0e7a95b9, wd 0x01002202, 208) := by decide +kernel
/-- K3: w(8), w(12) (SubWord only) and w(59). -/
theorem test_expand_256 :
    let rk := expand .k256 (hx 32 0x603deb1015ca71be2b73aef0857d77811f352c073b6108d72d9810a30914dff4)
    (wordAt rk 8, wordAt rk 12, wordAt rk 59, rk.length) =
      (wd 0x9ba35411, wd 0xa8b09c1a, wd 0x706c631e, 240) := by decide +kernel
/-- B1, B2. -/
theorem test_shift_rows :
    shiftRows ivC = blk 0x00050a0f04090e03080d02070c01060b ∧
    invShiftRows ivC = blk 0x000d0a0704010e0b0805020f0c090603 := by decide
/-- B3, B4. -/
theorem test_sub_bytes :
    subBytes (blk 0x00102030405060708090a0b0c0d0e0f0) = blk 0x63cab7040953d051cd60e0e7ba70e18c ∧
    invSubBytes (blk 0x63cab7040953d051cd60e0e7ba70e18c) = blk 0x00102030405060708090a0b0c0d0e0f0 := by
  decide +kernel
/-- B5, B10. -/
theorem test_mix_columns :
    mixColumns (blk 0xdb135345f20a225c01010101c6c6c6c6) = blk 0x8e4da1bc9fdc589d01010101c6c6c6c6 ∧
    mixColumns (blk 0x01000000000100000000010000000001) = blk 0x02010103030201010103020101010302 := by
  decide +kernel
/-- B7, B11. -/
theorem test_inv_mix_columns :
    invMixColumns (blk 0x8e4da1bc9fdc589d01010101c6c6c6c6) = blk 0xdb135345f20a225c01010101c6c6c6c6 ∧
    invMixColumns (blk 0x01000000000100000000010000000001) = blk 0x0e090d0b0b0e090d0d0b0e09090d0b0e := by
  decide +kernel
/-- B12, B13. -/
theorem test_add_round_key :
    addRoundKey p1 rk1 0 = blk 0x40bfabf406ee4d3042ca6b997a5c5816 ∧
    addRoundKey (blk 0) rk1 10 = blk 0xd014f9a8c9ee2589e13f0cc8b6630ca6 := by decide +kernel
/-- I2 to I5. -/
theorem test_ctr_inc :
    ctrInc (blk 0xff) = blk 0x100 ∧
    ctrInc (blk 0xffffffffffffffff) = blk 0x10000000000000000 ∧
    ctrInc (blk 0x00ffffffffffffffffffffffffffffff) = blk 0x01000000000000000000000000000000 ∧
    ctrInc (blk 0xffffffffffffffffffffffffffffffff) = blk 0 := by decide +kernel
/-- E9 with the schedule of K2, for KEYLEN = 192. -/
theorem test_cipher_192 : cipher 12
    (expand .k192 (hx 24 0x8e73b0f7da0e6452c810f32b809079e562f8ead2522c6b7b)) p1 =
      blk 0xbd334f1d6e45f25ff712a214571fa5cc := by decide +kernel
/-- E13 with the schedule of K3, for KEYLEN = 256. -/
theorem test_cipher_256 : cipher 14
    (expand .k256 (hx 32 0x603deb1015ca71be2b73aef0857d77811f352c073b6108d72d9810a30914dff4)) p1 =
      blk 0xf3eed1bdb5d2a03c064b5a7e3db181f8 := by decide +kernel

/-! ### The commands -/

/-- P4 step 2: INIT after a reject; RK[0..3] is the key's, CV is dropped, STICKY stays. -/
theorem test_init : (nextOf (exec (.init key1) { at64 .stream ivC 0 with sticky := true })).map
    (fun t => (t.status, t.cv, t.rk.map fun rk => wordAt rk 4)) =
      some (0x00000009, none, some (wd 0xa0fafe17)) := by decide +kernel
/-- R131's worked example. -/
theorem test_init_iv : (nextOf (exec (.initIv key1 ivC) (at64 .uninit ivC 0))).map
    (fun t => (t.status, t.cv, t.rk.map fun rk => wordAt rk 0)) =
      some (0x00000002, some ivC, some (wd 0x2b7e1516)) := by decide +kernel
/-- R132: STREAM goes back to CHSET, and RK stays. -/
theorem test_set_iv : nextOf (exec (.setIv ivT) (at64 .stream ivC 0)) = some (at64 .chset ivT 0) := by
  decide +kernel
/-- R132: no key, no chaining value. -/
theorem test_set_iv_no_key : (nextOf (exec (.setIv ivT) (at64 .uninit ivC 0))).map (fun t => (t.status, t.cv)) =
    some (0x00000028, none) := by decide +kernel
/-- P4 step 15: DESTROY keeps STICKY and BUF. -/
theorem test_destroy : nextOf (exec .destroy { at64 .stream ivC 0 with sticky := true, err := .bounds }) =
    some { at64 .uninit ivC 0 with sticky := true } := by decide +kernel
/-- V1, P1 step 2; byte 16 is not touched. -/
theorem test_ecb_enc : (nextOf (exec (.ecbEnc 0) (at64 .keyexp ivC 0))).map
    (fun t => (t.buf.readBlock 0, t.buf.read 16, t.status)) =
      some (blk 0x3ad77bb40d7a3660a89ecaf32466ef97, 0, 0x00000001) := by decide +kernel
/-- V1 backwards, P1 step 3. -/
theorem test_ecb_dec : (nextOf (exec (.ecbDec 0)
    { at64 .keyexp ivC 0 with buf := Memory.writeBlock [] 0 (blk 0x3ad77bb40d7a3660a89ecaf32466ef97) })).map
    (fun t => t.buf.readBlock 0) = some p1 := by decide +kernel
/-- C1, its first block, which becomes CV. -/
theorem test_cbc_enc : (nextOf (exec (.cbcEnc 0 16) (at64 .chset ivC 0))).map
    (fun t => (t.buf.readBlock 0, t.cv, t.status)) =
      some (blk 0x7649abac8119b246cee98e9b12e9197d, some (blk 0x7649abac8119b246cee98e9b12e9197d),
        0x00000003) := by decide +kernel
/-- C5: an empty range is accepted and moves PHASE only. -/
theorem test_cbc_enc_empty : nextOf (exec (.cbcEnc 0 0) (at64 .chset ivC 0)) =
    some (at64 .stream ivC 0) := by decide +kernel
/-- C6: CV becomes the input block. -/
theorem test_cbc_dec : (nextOf (exec (.cbcDec 0 16) (at64 .chset ivC 0))).map
    (fun t => (t.buf.readBlock 0, t.cv)) =
      some (blk 0x500496e109686a8b79626c7734fd8bfe, some p1) := by decide +kernel
/-- T6c: the keystream starts at its byte 0, not at `ptr mod 16`; bytes 4 and 12 stay. -/
theorem test_ctr_xcrypt : (nextOf (exec (.ctrXcrypt 5 7) (at64 .chset ivT 0))).map
    (fun t => ((List.range 9).map fun k => t.buf.read (4 + k), t.cv, t.status)) =
      some (hx 9 0x2eac13499aa51e6d73, some (blk 0xf0f1f2f3f4f5f6f7f8f9fafbfcfdff00), 0x00000003) := by
  decide +kernel
/-- T4: with `len = 0` CV does not change. -/
theorem test_ctr_xcrypt_empty : nextOf (exec (.ctrXcrypt 0 0) (at64 .chset ivT 0)) =
    some (at64 .stream ivT 0) := by decide +kernel

/-! ### Acceptance: section 9 -/

/-- J1, J2, J9, J10: LENGTH comes before BOUNDS and after PHASE. -/
theorem test_length_rejects :
    report (exec (.cbcEnc 0 17) (at64 .chset ivC 0)) = some (.length, .chset) ∧
    report (exec (.cbcDec 0 15) (at64 .chset ivC 0)) = some (.length, .chset) ∧
    report (exec (.cbcEnc 60 17) (at64 .chset ivC 0)) = some (.length, .chset) ∧
    report (exec (.cbcEnc 60 17) (at64 .uninit ivC 0)) = some (.phase, .uninit) := by decide +kernel
/-- J4 to J8: the ends of BUF. -/
theorem test_cbc_bounds :
    report (exec (.cbcEnc 48 16) (at64 .chset ivC 0)) = some (.ok, .stream) ∧
    report (exec (.cbcEnc 49 16) (at64 .chset ivC 0)) = some (.bounds, .chset) ∧
    report (exec (.cbcEnc 64 0) (at64 .chset ivC 0)) = some (.ok, .stream) ∧
    report (exec (.cbcEnc 65 0) (at64 .chset ivC 0)) = some (.bounds, .chset) := by decide +kernel
/-- J11 to J14. -/
theorem test_ecb_checks :
    report (exec (.cbcEnc 0 16) (at64 .keyexp ivC 0)) = some (.phase, .keyexp) ∧
    report (exec (.ecbEnc 48) (at64 .keyexp ivC 0)) = some (.ok, .keyexp) ∧
    report (exec (.ecbEnc 49) (at64 .keyexp ivC 0)) = some (.bounds, .keyexp) ∧
    report (exec (.ecbDec 4294967295) (at64 .keyexp ivC 0)) = some (.bounds, .keyexp) := by decide +kernel
/-- J15 to J19: the sum does not wrap, and CTR has no LENGTH check. -/
theorem test_ctr_bounds :
    report (exec (.ctrXcrypt 60 4) (at64 .chset ivC 0)) = some (.ok, .stream) ∧
    report (exec (.ctrXcrypt 60 5) (at64 .chset ivC 0)) = some (.bounds, .chset) ∧
    report (exec (.ctrXcrypt 4294967295 2) (at64 .chset ivC 0)) = some (.bounds, .chset) ∧
    report (exec (.ctrXcrypt 1 4294967295) (at64 .chset ivC 0)) = some (.bounds, .chset) ∧
    report (exec (.ctrXcrypt 0 17) (at64 .chset ivC 0)) = some (.ok, .stream) := by decide +kernel
/-- J20, J21: an illegal descriptor is rejected before anything else is looked at. -/
theorem test_illegal_descriptors :
    report (issue [0x05] (at64 .stream ivC 0)) = some (.illegalCmd, .stream) ∧
    report (issue [0x20, 0, 0, 0, 0] (at64 .uninit ivC 0)) = some (.illegalCmd, .uninit) := by
  decide +kernel
/-- P7: in an ECB-only build the chaining commands do not exist; ILLEGAL_CMD comes before PHASE. -/
theorem test_disabled_modes :
    let s := { at64 .uninit ivC 0 with build := ⟨.k128, true, false, false, 16⟩ }
    report (exec (.initIv key1 ivC) s) = some (.illegalCmd, .uninit) ∧
    report (exec (.setIv ivC) s) = some (.illegalCmd, .uninit) ∧
    report (exec (.cbcEnc 0 16) s) = some (.illegalCmd, .uninit) ∧
    report (exec (.ctrXcrypt 0 1) s) = some (.illegalCmd, .uninit) ∧
    report (exec (.init key1) s) = some (.ok, .keyexp) := by decide +kernel
/-- The rows of the build table with EN_CBC only and with EN_CTR only. -/
theorem test_disabled_ecb :
    report (exec (.ecbDec 0) { at64 .keyexp ivC 0 with build := ⟨.k128, false, true, false, 64⟩ }) =
      some (.illegalCmd, .keyexp) ∧
    report (exec (.ctrXcrypt 0 1) { at64 .chset ivC 0 with build := ⟨.k128, false, true, false, 64⟩ }) =
      some (.illegalCmd, .chset) ∧
    report (exec (.cbcDec 0 16) { at64 .chset ivC 0 with build := ⟨.k128, false, false, true, 64⟩ }) =
      some (.illegalCmd, .chset) := by decide +kernel
/-- R171: INIT_IV with a key of another build's length is no command. -/
theorem test_reject_keeps_state : nextOf (exec (.initIv (hx 24 0) ivC) (at64 .stream ivT 0)) =
    some { at64 .stream ivT 0 with err := .illegalCmd, sticky := true } := by decide +kernel

/-! ### The host's side -/

/-- The STATUS values of section 9. -/
theorem test_status :
    State.reset.status = 0x00000000 ∧
    (takeReject .phase State.reset).status = 0x00000028 ∧
    (takeReject .bounds (at64 .stream ivC 0)).status = 0x0000004B := by decide +kernel
/-- The CONFIG values of section 9. -/
theorem test_config :
    State.reset.config = 0x00000070 ∧
    (State.launch ⟨.k128, true, false, false, 16⟩ []).config = 0x00000010 ∧
    (State.launch ⟨.k192, false, true, false, 16⟩ []).config = 0x00000021 ∧
    (State.launch ⟨.k256, false, false, true, 16⟩ []).config = 0x00000042 := by decide +kernel
/-- R191: reset does not write BUF; R40: there is no register 2. -/
theorem test_reset_action :
    nextOf (hostAct .reset { at64 .stream ivC 3 with sticky := true, err := .bounds }) =
      some (at64 .uninit ivC 3) ∧
    hostReadReg 2 State.reset = none ∧ hostReadBuf 3 (at64 .stream ivC 3) = some 0x6b ∧
    hostReadBuf 64 (at64 .stream ivC 3) = none := by decide +kernel
/-- R31: the host writes a byte of BUF; an address BUF does not have is no byte to write. -/
theorem test_host_write :
    nextOf (hostWriteBuf 63 0x5a (at64 .uninit ivC 0)) =
      some { at64 .uninit ivC 0 with buf := (at64 .uninit ivC 0).buf ++ [(63, 0x5a)] } ∧
    nextOf (hostWriteBuf 64 0x5a (at64 .uninit ivC 0)) = none := by decide +kernel

/-! ### The assembler -/

/-- Lines of the listings of section 10, a comment and a hexadecimal number. -/
theorem test_assembler :
    asmLine .k128 "CBC_ENC ptr=32, len=32".toList = .command (.real (.cbcEnc 32 32)) ∧
    asmLine .k128 "SET_IV iv=000102030405060708090a0b0c0d0e0f".toList = .command (.real (.setIv ivC)) ∧
    asmLine .k128 "DESTROY ; dispose".toList = .command (.real .destroy) ∧
    asmLine .k128 "ECB_ENC ptr=0x10".toList = .command (.real (.ecbEnc 16)) ∧
    asmLine .k128 "HOST: read STATUS, read BUF".toList = .host ∧
    asmLine .k128 "ECB_ENC ptr=4294967296".toList = .bad := by decide +kernel
/-- P9: `ECB_ENC_N ptr=0, n=64` is four commands. -/
theorem test_pseudo : (AsmCommand.ecbEncN 0 64).expand =
    some [.ecbEnc 0, .ecbEnc 16, .ecbEnc 32, .ecbEnc 48] := by decide +kernel
/-- R69 at the last address R68 can write. -/
theorem test_pseudo_last_address : (AsmCommand.ecbDecN 4294967295 16).expand =
    some [.ecbDec 4294967295] := by decide +kernel

/-! ### Witnesses: a state and operands that meet the hypotheses of each obligation -/

/-- An engine in order in a phase, with the key of K1 and the iv of the CBC vectors. -/
def wit (p : Phase) (q : List HostAction) : State :=
  { at64 p ivC 0 with rk := if p.hasKey then some (expand .k128 key1) else none, pending := q }

theorem key1_length : key1.length = 16 := by rfl

theorem wit_buf (p : Phase) (q : List HostAction) : (wit p q).buf = Memory.writeBlock [] 0 p1 := by
  simp only [wit, at64]

theorem wit_buf_wf (p : Phase) (q : List HostAction) : (wit p q).buf.wf = true := by
  rw [wit_buf]
  exact Memory.writeBlock_wf (by rfl) _ _

/-- The witness states meet the invariant in every phase. -/
theorem wit_inv (p : Phase) (q : List HostAction) : EngineInv (wit p q) where
  build_wf := by
    show b64.wf = true
    decide
  rk_written := by cases p <;> rfl
  cv_written := by cases p <;> rfl
  rk_expanded rk h := by
    refine ⟨key1, key1_length, ?_⟩
    cases p
    · exact absurd h (by simp [wit, Phase.hasKey])
    all_goals exact (Option.some.inj h).symm
  chain_built _ := rfl
  reject_sticks h := absurd rfl h
  buf_wf := wit_buf_wf p q
  buf_below := by
    rw [wit_buf]
    exact Memory.writeBlock_below (by rfl) _ _ (show 0 + 16 ≤ b64.bufSize by decide)

theorem witness_ExpandFollowsTheWordRecurrence : key1.length = KeyLen.k128.keyBytes ∧
    (KeyLen.k128.nk ≤ 4 ∧ 4 < KeyLen.k128.rkWords) ∧ (KeyLen.k128.nk ≤ 5 ∧ 5 < KeyLen.k128.rkWords) ∧
    (KeyLen.k256.nk ≤ 12 ∧ 12 < KeyLen.k256.rkWords ∧ 12 % 8 = 4) ∧
    (KeyLen.k192.nk ≤ 51 ∧ 51 < KeyLen.k192.rkWords) := by decide
theorem witness_DifferentKeysGiveDifferentSchedules :
    key1.length = KeyLen.k128.keyBytes ∧ expand .k128 key1 = expand .k128 key1 := ⟨rfl, rfl⟩
theorem witness_ShiftRowsFollowTheIndexTables : 0 < 16 ∧ 15 < 16 := by decide
theorem witness_InvCipherInvertsCipher :
    (List.replicate 176 (0x5a : Byte)).length = KeyLen.k128.rkBytes ∧
    (List.replicate 240 (0x5a : Byte)).length = KeyLen.k256.rkBytes := by
  simp only [List.length_replicate]
  decide
theorem witness_DecodeOfEncodeIsTheCommand :
    (Instr.initIv key1 ivC).wf .k128 = true ∧ (Instr.ctrXcrypt 4294967295 0).wf .k256 = true := by decide
theorem witness_EncodeOfDecodeIsTheDescriptor : decode .k192 [0x11, 0xff, 0xff, 0xff, 0xff] =
    .ok (.ecbDec 4294967295) := by rfl
/-- A last block at the last address R68 can write, an empty range there, and both ways to have no expansion. -/
theorem witness_PseudoCommandsExpandToCommands :
    ((16 : BitVec 32).toNat % 16 = 0 ∧
      (4294967295 : BitVec 32).toNat + (16 : BitVec 32).toNat < 2 ^ 32 + 16) ∧
    ((0 : BitVec 32).toNat % 16 = 0 ∧
      (4294967295 : BitVec 32).toNat + (0 : BitVec 32).toNat < 2 ^ 32 + 16) ∧
    (17 : BitVec 32).toNat % 16 ≠ 0 ∧
    2 ^ 32 + 16 ≤ (4294967280 : BitVec 32).toNat + (32 : BitVec 32).toNat := by decide

/-- Both clauses: a descriptor that decodes and one that does not. -/
theorem witness_StepRunsTheDecodedCommand :
    ((wit .chset [.command [0x04]]).pending = .command [0x04] :: [] ∧
      decode (wit .chset []).build.keyLen [0x04] = .ok .destroy) ∧
    ((wit .chset [.command [0x00]]).pending = .command [0x00] :: [] ∧
      decode (wit .chset []).build.keyLen [0x00] = .error (.unknownOpcode 0x00)) :=
  ⟨⟨rfl, rfl⟩, ⟨rfl, rfl⟩⟩
theorem witness_EveryDescriptorCompletes : EngineInv (wit .stream [.command [0x05]]) ∧
    (wit .stream [.command [0x05]]).pending = .command [0x05] :: [] := ⟨wit_inv _ _, rfl⟩
theorem witness_RejectChangesOnlyErrAndSticky :
    ∃ t, step (wit .stream [.command [0x05]]) = .next t ∧ t.err ≠ .ok := ⟨_, rfl, by decide⟩
/-- Both sides of the equivalence. -/
theorem witness_IllegalCmdIffNoCommandOfTheBuild :
    (∃ t, step (wit .stream [.command [0x05]]) = .next t ∧ t.err = .illegalCmd) ∧
    (∃ t, step (wit .stream [.command [0x04]]) = .next t ∧ t.err = .ok) := ⟨⟨_, rfl, rfl⟩, ⟨_, rfl, rfl⟩⟩
/-- Every command that can be rejected with PHASE is, in the last phase that does not serve it. -/
theorem witness_PhaseRejectIffContextLacksWhatIsNeeded :
    (∃ t, exec (.setIv ivC) (wit .uninit []) = .next t ∧ t.err = .phase) ∧
    (∃ t, exec (.ecbEnc 0) (wit .uninit []) = .next t ∧ t.err = .phase) ∧
    (∃ t, exec (.ecbDec 0) (wit .uninit []) = .next t ∧ t.err = .phase) ∧
    (∃ t, exec (.cbcEnc 0 16) (wit .keyexp []) = .next t ∧ t.err = .phase) ∧
    (∃ t, exec (.cbcDec 0 16) (wit .keyexp []) = .next t ∧ t.err = .phase) ∧
    (∃ t, exec (.ctrXcrypt 0 1) (wit .keyexp []) = .next t ∧ t.err = .phase) :=
  ⟨⟨_, rfl, rfl⟩, ⟨_, rfl, rfl⟩, ⟨_, rfl, rfl⟩, ⟨_, rfl, rfl⟩, ⟨_, rfl, rfl⟩, ⟨_, rfl, rfl⟩⟩
theorem witness_LengthRejectIffRaggedCbc :
    (∃ t, exec (.cbcEnc 0 17) (wit .chset []) = .next t ∧ t.err = .length) ∧
    (∃ t, exec (.cbcDec 64 1) (wit .chset []) = .next t ∧ t.err = .length) :=
  ⟨⟨_, rfl, rfl⟩, ⟨_, rfl, rfl⟩⟩
/-- The first range that does not fit, for each command that has one. -/
theorem witness_BoundsRejectIffRangeOutsideBuf :
    (∃ t, exec (.ecbEnc 49) (wit .keyexp []) = .next t ∧ t.err = .bounds) ∧
    (∃ t, exec (.ecbDec 49) (wit .keyexp []) = .next t ∧ t.err = .bounds) ∧
    (∃ t, exec (.cbcEnc 65 0) (wit .chset []) = .next t ∧ t.err = .bounds) ∧
    (∃ t, exec (.cbcDec 49 16) (wit .chset []) = .next t ∧ t.err = .bounds) ∧
    (∃ t, exec (.ctrXcrypt 64 1) (wit .chset []) = .next t ∧ t.err = .bounds) :=
  ⟨⟨_, rfl, rfl⟩, ⟨_, rfl, rfl⟩, ⟨_, rfl, rfl⟩, ⟨_, rfl, rfl⟩, ⟨_, rfl, rfl⟩⟩
/-- An accepted command, a rejected one, and one in a "—" cell. -/
theorem witness_PhaseFollowsThePhaseTable :
    (∃ t, exec .destroy (wit .stream []) = .next t ∧ t.err = .ok) ∧
    (∃ t, exec (.cbcEnc 0 17) (wit .chset []) = .next t ∧ t.err ≠ .ok) ∧
    (∃ t, exec (.cbcEnc 0 16) (wit .keyexp []) = .next t ∧ existsIn (wit .keyexp []).build (.cbcEnc 0 16) ∧
      phaseTable (.cbcEnc 0 16) .keyexp = none) :=
  ⟨⟨_, rfl, rfl⟩, ⟨_, rfl, by decide⟩, ⟨_, rfl, rfl, rfl⟩⟩
theorem witness_StickyRecordsEveryReject :
    (∃ t, step (wit .stream [.command [0x05]]) = .next t ∧ t.sticky = true) ∧
    (∃ t, step (wit .stream [.command [0x04]]) = .next t ∧ t.sticky = false) :=
  ⟨⟨_, rfl, rfl⟩, ⟨_, rfl, rfl⟩⟩

/-- The key and the build of INIT, INIT_IV and the two together. -/
theorem witness_InitExpandsTheKey : key1.length = (wit .uninit []).build.keyLen.keyBytes := rfl
theorem witness_InitIvExpandsTheKeyAndSetsTheChain :
    key1.length = (wit .uninit []).build.keyLen.keyBytes ∧
    ((wit .uninit []).build.enCbc = true ∨ (wit .uninit []).build.enCtr = true) := ⟨rfl, .inl rfl⟩
theorem witness_InitIvIsInitThenSetIv :
    (hx 32 0).length = (State.launch ⟨.k256, false, false, true, 16⟩ []).build.keyLen.keyBytes ∧
    ((State.launch ⟨.k256, false, false, true, 16⟩ []).build.enCbc = true ∨
      (State.launch ⟨.k256, false, false, true, 16⟩ []).build.enCtr = true) := ⟨rfl, .inr rfl⟩
theorem witness_SetIvReplacesTheChain : ((wit .keyexp []).build.enCbc = true ∨
    (wit .keyexp []).build.enCtr = true) ∧ (wit .keyexp []).phase ≠ .uninit := ⟨.inl rfl, by decide⟩

/-- The last block of BUF. -/
theorem witness_EcbEncEnciphersOneBlock : (wit .keyexp []).build.enEcb = true ∧
    (wit .keyexp []).phase ≠ .uninit ∧ (wit .keyexp []).rk = some (expand .k128 key1) ∧
    (wit .keyexp []).buf.wf = true ∧ (48 : BitVec 32).toNat + 16 ≤ (wit .keyexp []).build.bufSize :=
  ⟨rfl, by decide, rfl, wit_buf_wf _ _, by decide⟩
theorem witness_EcbDecDeciphersOneBlock : (wit .stream []).build.enEcb = true ∧
    (wit .stream []).phase ≠ .uninit ∧ (wit .stream []).rk = some (expand .k128 key1) ∧
    (wit .stream []).buf.wf = true ∧ (0 : BitVec 32).toNat + 16 ≤ (wit .stream []).build.bufSize :=
  ⟨rfl, by decide, rfl, wit_buf_wf _ _, by decide⟩
theorem witness_EcbRoundTripRestoresTheState : EngineInv (wit .keyexp []) ∧
    (wit .keyexp []).build.enEcb = true ∧ (wit .keyexp []).phase ≠ .uninit ∧
    (48 : BitVec 32).toNat + 16 ≤ (wit .keyexp []).build.bufSize :=
  ⟨wit_inv _ _, rfl, by decide, by decide⟩

/-- The chained commands: a range that ends with BUF, and an empty one at its end. -/
theorem witness_CbcEncChainsTheCiphertext : (wit .chset []).build.enCbc = true ∧
    ((wit .chset []).phase = .chset ∨ (wit .chset []).phase = .stream) ∧
    (wit .chset []).rk = some (expand .k128 key1) ∧ (wit .chset []).cv = some ivC ∧
    (wit .chset []).buf.wf = true ∧
    ((64 : BitVec 32).toNat % 16 = 0 ∧ (0 : BitVec 32).toNat + (64 : BitVec 32).toNat ≤ b64.bufSize) ∧
    ((0 : BitVec 32).toNat % 16 = 0 ∧ (64 : BitVec 32).toNat + (0 : BitVec 32).toNat ≤ b64.bufSize) :=
  ⟨rfl, .inl rfl, rfl, rfl, wit_buf_wf _ _, by decide, by decide⟩
theorem witness_CbcDecChainsTheSavedCiphertext : (wit .stream []).build.enCbc = true ∧
    ((wit .stream []).phase = .chset ∨ (wit .stream []).phase = .stream) ∧
    (wit .stream []).rk = some (expand .k128 key1) ∧ (wit .stream []).cv = some ivC ∧
    (wit .stream []).buf.wf = true ∧
    ((64 : BitVec 32).toNat % 16 = 0 ∧ (0 : BitVec 32).toNat + (64 : BitVec 32).toNat ≤ b64.bufSize) ∧
    ((0 : BitVec 32).toNat % 16 = 0 ∧ (64 : BitVec 32).toNat + (0 : BitVec 32).toNat ≤ b64.bufSize) :=
  ⟨rfl, .inr rfl, rfl, rfl, wit_buf_wf _ _, by decide, by decide⟩
theorem witness_CbcRoundTripRestoresTheBuffer : EngineInv (wit .chset []) ∧
    (wit .chset []).build.enCbc = true ∧ (wit .chset []).cv = some ivC ∧
    (48 : BitVec 32).toNat % 16 = 0 ∧ (16 : BitVec 32).toNat + (48 : BitVec 32).toNat ≤ b64.bufSize :=
  ⟨wit_inv _ _, rfl, rfl, by decide, by decide⟩
theorem witness_CbcStreamsAcrossCommands : EngineInv (wit .chset []) ∧
    (wit .chset []).build.enCbc = true ∧ (wit .chset []).phase.hasChain = true ∧
    (32 : BitVec 32).toNat % 16 = 0 ∧ (16 : BitVec 32).toNat % 16 = 0 ∧
    (48 : BitVec 32).toNat = (16 : BitVec 32).toNat + (32 : BitVec 32).toNat ∧
    (48 : BitVec 32).toNat = (32 : BitVec 32).toNat + (16 : BitVec 32).toNat ∧
    (16 : BitVec 32).toNat + (48 : BitVec 32).toNat ≤ b64.bufSize :=
  ⟨wit_inv _ _, rfl, rfl, by decide, by decide, by decide, by decide, by decide⟩
theorem witness_CbcDecWithoutSetIvGarblesOnlyTheFirstBlock : EngineInv (wit .stream []) ∧
    (wit .stream []).build.enCbc = true ∧ (wit .stream []).cv = some ivC ∧
    (64 : BitVec 32).toNat % 16 = 0 ∧ 0 < (64 : BitVec 32).toNat ∧
    (0 : BitVec 32).toNat + (64 : BitVec 32).toNat ≤ b64.bufSize ∧ 3 < (64 : BitVec 32).toNat / 16 :=
  ⟨wit_inv _ _, rfl, rfl, by decide, by decide, by decide, by decide⟩

theorem witness_CtrXcryptXorsTheKeystream : (wit .chset []).build.enCtr = true ∧
    ((wit .chset []).phase = .chset ∨ (wit .chset []).phase = .stream) ∧
    (wit .chset []).rk = some (expand .k128 key1) ∧ (wit .chset []).cv = some ivC ∧
    (wit .chset []).buf.wf = true ∧ (47 : BitVec 32).toNat + (17 : BitVec 32).toNat ≤ b64.bufSize ∧
    (64 : BitVec 32).toNat + (0 : BitVec 32).toNat ≤ b64.bufSize :=
  ⟨rfl, .inl rfl, rfl, rfl, wit_buf_wf _ _, by decide, by decide⟩
theorem witness_CounterValueIsInjective : counterValue ivT = counterValue ivT := rfl
theorem witness_CtrTwiceRestoresTheBuffer : EngineInv (wit .stream []) ∧
    (wit .stream []).build.enCtr = true ∧ (wit .stream []).cv = some ivC ∧
    (27 : BitVec 32).toNat + (37 : BitVec 32).toNat ≤ b64.bufSize := ⟨wit_inv _ _, rfl, rfl, by decide⟩
theorem witness_CtrSplitsAtWholeBlocks : EngineInv (wit .chset []) ∧
    (wit .chset []).build.enCtr = true ∧ (wit .chset []).phase.hasChain = true ∧
    (16 : BitVec 32).toNat % 16 = 0 ∧
    (47 : BitVec 32).toNat = (31 : BitVec 32).toNat + (16 : BitVec 32).toNat ∧
    (33 : BitVec 32).toNat = (16 : BitVec 32).toNat + (17 : BitVec 32).toNat ∧
    (31 : BitVec 32).toNat + (33 : BitVec 32).toNat ≤ b64.bufSize :=
  ⟨wit_inv _ _, rfl, rfl, by decide, by decide, by decide, by decide⟩
/-- The lengths of vector T8. -/
theorem witness_CtrSplitRestartsTheKeystream : (wit .chset []).build.enCtr = true ∧
    ((wit .chset []).phase = .chset ∨ (wit .chset []).phase = .stream) ∧
    (wit .chset []).rk = some (expand .k128 key1) ∧ (wit .chset []).cv = some ivC ∧
    (wit .chset []).buf.wf = true ∧
    (20 : BitVec 32).toNat = (0 : BitVec 32).toNat + (20 : BitVec 32).toNat ∧
    (20 : BitVec 32).toNat + (12 : BitVec 32).toNat ≤ b64.bufSize :=
  ⟨rfl, .inl rfl, rfl, rfl, wit_buf_wf _ _, by decide, by decide⟩

theorem witness_ContextCommandsFrame :
    (∃ t, exec (.init key1) (wit .stream []) = .next t) ∧
    (∃ t, exec (.initIv key1 ivC) (wit .stream []) = .next t) ∧
    (∃ t, exec (.setIv ivC) (wit .stream []) = .next t) ∧ (∃ t, exec .destroy (wit .stream []) = .next t) :=
  ⟨exec_completes (wit_inv _ _), exec_completes (wit_inv _ _), exec_completes (wit_inv _ _),
    exec_completes (wit_inv _ _)⟩
theorem witness_EcbCommandsFrame : (wit .stream []).buf.wf = true ∧
    (∃ t, exec (.ecbEnc 48) (wit .stream []) = .next t) ∧
    (∃ t, exec (.ecbDec 49) (wit .stream []) = .next t) :=
  ⟨wit_buf_wf _ _, exec_completes (wit_inv _ _), exec_completes (wit_inv _ _)⟩
theorem witness_StreamCommandsFrame : (wit .stream []).buf.wf = true ∧
    (∃ t, exec (.cbcEnc 48 16) (wit .stream []) = .next t) ∧
    (∃ t, exec (.cbcDec 48 16) (wit .stream []) = .next t) ∧
    (∃ t, exec (.ctrXcrypt 63 1) (wit .stream []) = .next t) :=
  ⟨wit_buf_wf _ _, exec_completes (wit_inv _ _), exec_completes (wit_inv _ _), exec_completes (wit_inv _ _)⟩
theorem witness_NoCommandWritesOutsideItsRange : (wit .chset []).buf.wf = true ∧
    ∃ t, exec (.ctrXcrypt 5 7) (wit .chset []) = .next t := ⟨wit_buf_wf _ _, exec_completes (wit_inv _ _)⟩

theorem witness_EveryLaunchMeetsTheInvariant : Build.wf ⟨.k256, false, true, false, 16⟩ = true ∧
    Memory.wf [(15, 0xff)] = true ∧ Memory.below 16 [(15, 0xff)] = true := by decide
theorem witness_StepKeepsTheInvariant : EngineInv (wit .chset [.reset]) ∧
    ∃ t, step (wit .chset [.reset]) = .next t := ⟨wit_inv _ _, _, rfl⟩
theorem witness_NoStepChangesTheBuild : ∃ t, step (wit .chset [.writeReg 1 0]) = .next t := ⟨_, rfl⟩
/-- Each of the three opcodes writes RK. -/
theorem witness_OnlyInitAndDestroyWriteTheSchedule :
    (∃ t, step (wit .uninit [.command (encode (.init key1))]) = .next t ∧
      t.rk ≠ (wit .uninit []).rk) ∧
    (∃ t, step (wit .uninit [.command (encode (.initIv key1 ivC))]) = .next t ∧
      t.rk ≠ (wit .uninit []).rk) ∧
    (∃ t, step (wit .keyexp [.command [0x04]]) = .next t ∧ t.rk ≠ (wit .keyexp []).rk) :=
  ⟨⟨_, rfl, by simp [wit, Phase.hasKey]⟩, ⟨_, rfl, by simp [wit, Phase.hasKey]⟩,
    ⟨_, rfl, by simp [wit, Phase.hasKey]⟩⟩
/-- Two engines with different keys, chaining values and BUF contents. -/
theorem witness_OutcomeDoesNotDependOnKeyOrData :
    let d : List Byte := [0x20, 0, 0, 0, 0, 0, 0, 0, 0]
    let s' : State := { wit .chset [.command d] with
      rk := some (List.replicate 176 0), cv := some ivT, buf := [] }
    (wit .chset []).build = s'.build ∧ (wit .chset []).phase = s'.phase ∧
    (wit .chset []).sticky = s'.sticky ∧ s'.pending = .command d :: [] ∧
    (∃ t, step (wit .chset [.command d]) = .next t) ∧ ∃ t, step s' = .next t :=
  ⟨rfl, rfl, rfl, rfl, ⟨_, rfl⟩, ⟨_, rfl⟩⟩

theorem witness_RegisterWritesAreIgnored : 0 < 2 ∧ 1 < 2 ∧
    (wit .chset [.writeReg 1 0xffffffff]).pending = .writeReg 1 0xffffffff :: [] := ⟨by decide, by decide, rfl⟩
theorem witness_HostWriteChangesOneByte : (wit .chset []).buf.wf = true ∧ 63 < b64.bufSize ∧
    (wit .chset [.writeBuf 63 0]).pending = .writeBuf 63 0 :: [] := ⟨wit_buf_wf _ _, by decide, rfl⟩
theorem witness_ResetLeavesTheResetState : (wit .stream [.reset]).pending = .reset :: [] := rfl

end Sys2Proof.Tests
end

/-! The build parameters through a step (R9): inversion lemmas for the host's actions and the step, and that
each operation of the engine keeps the build. -/

namespace Sys2Proof.Machine

/-- CONFIG shows the build and nothing else (R29). -/
theorem State.config_congr {s t : State} (h : t.build = s.build) : t.config = s.config := by
  simp only [State.config, h]

/-- R31: a host write of BUF that completes is inside BUF and replaces that byte only. -/
theorem hostWriteBuf_eq_next {a : Nat} {v : Byte} {s t : State} :
    hostWriteBuf a v s = .next t ↔ a < s.build.bufSize ∧ t = s.setBuf (s.buf.write a v) := by
  by_cases h : a < s.build.bufSize <;> simp [hostWriteBuf, h, eq_comm]

/-- R28, R29: a host write to a register that completes names one of the two and changes nothing. -/
theorem hostWriteReg_eq_next {n : Nat} {v : BitVec 32} {s t : State} :
    hostWriteReg n v s = .next t ↔ n < 2 ∧ t = s := by
  by_cases h : n < 2 <;> simp [hostWriteReg, h, eq_comm]

/-- R16, R51: everything a step can do: idle with an empty queue, or the first host action carried out. -/
theorem step_eq_next {s t : State} :
    step s = .next t ↔
      (s.pending = [] ∧ t = s) ∨
      (∃ a rest, s.pending = a :: rest ∧ hostAct a { s with pending := rest } = .next t) := by
  unfold step takeAction
  cases h : s.pending with
  | nil => simp [eq_comm]
  | cons a rest => simp

/-- No command changes the build, accepted or rejected. -/
theorem exec_keeps_build {i : Instr} {s t : State} (h : exec i s = .next t) : t.build = s.build := by
  obtain ⟨code, -, rfl⟩ | ⟨-, hrun⟩ := exec_eq_next.1 h
  · exact takeReject_build s code
  · obtain ⟨-, -, hbuild, -⟩ := runOf_eq_next hrun
    exact hbuild

/-- No descriptor changes the build, legal or illegal. -/
theorem issue_keeps_build {d : List Byte} {s t : State} (h : issue d s = .next t) : t.build = s.build := by
  obtain ⟨e, -, rfl⟩ | ⟨i, -, hexec⟩ := issue_eq_next.1 h
  · exact takeReject_build s .illegalCmd
  · exact exec_keeps_build hexec

/-- No host action changes the build. -/
theorem hostAct_keeps_build {a : HostAction} {s t : State} (h : hostAct a s = .next t) :
    t.build = s.build := by
  cases a with
  | command d => exact issue_keeps_build h
  | writeBuf addr v =>
    obtain ⟨-, rfl⟩ := hostWriteBuf_eq_next.1 h
    exact State.setBuf_build s _
  | writeReg n v =>
    obtain ⟨-, rfl⟩ := (hostWriteReg_eq_next (v := v)).1 h
    rfl
  | reset =>
    cases h
    exact applyReset_build s

theorem step_keeps_build {s t : State} (h : step s = .next t) : t.build = s.build := by
  obtain ⟨-, rfl⟩ | ⟨a, rest, -, hact⟩ := step_eq_next.1 h
  · rfl
  · have hbuild := hostAct_keeps_build hact
    exact hbuild

/-- Settles O52: every step keeps the build, and CONFIG is a function of the build. -/
theorem noStepChangesTheBuild : Obligations.NoStepChangesTheBuild := fun _ _ h =>
  ⟨step_keeps_build h, State.config_congr (step_keeps_build h)⟩

end Sys2Proof.Machine

/-! The invariant of an engine (R22, R28, R31): each named update of the state keeps it under the
checks that guard the update, hence each command, each host action and each step does. -/

namespace Sys2Proof.Machine

/-- R22: a chaining value is written only where a key is. -/
theorem Phase.hasKey_of_hasChain {p : Phase} (h : p.hasChain = true) : p.hasKey = true := by
  cases p with
  | uninit | keyexp => simp [Phase.hasChain] at h
  | chset | stream => rfl

/-- R190: right after launch nothing is written and nothing has been rejected. -/
theorem engineInv_launch {b : Build} {buf : Memory} (hb : b.wf = true) (hwf : buf.wf = true)
    (hbelow : buf.below b.bufSize = true) : EngineInv (State.launch b buf) where
  build_wf := hb
  rk_written := rfl
  cv_written := rfl
  rk_expanded _ h := nomatch h
  chain_built h := nomatch h
  reject_sticks h := absurd rfl h
  buf_wf := hwf
  buf_below := hbelow

/-- Settles O50: right after launch only the build and BUF carry anything to check. -/
theorem everyLaunchMeetsTheInvariant : Obligations.EveryLaunchMeetsTheInvariant :=
  fun _ _ => engineInv_launch

/-- Settles O49: reset is the launch of one legal build with an empty BUF. -/
theorem resetMeetsTheInvariant : Obligations.ResetMeetsTheInvariant :=
  engineInv_launch (by decide) rfl rfl

/-! What keeps the invariant, update by update. -/

/-- The host's queue is no part of the invariant. -/
theorem EngineInv.withPending {s : State} (hi : EngineInv s) (q : List HostAction) :
    EngineInv { s with pending := q } := { hi with }

/-- R172: a reject changes ERR and STICKY only, and sets both. -/
theorem EngineInv.takeReject {s : State} (hi : EngineInv s) (code : ErrCode) :
    EngineInv (takeReject code s) := { hi with reject_sticks := fun _ => rfl }

theorem EngineInv.setErr_ok {s : State} (hi : EngineInv s) : EngineInv (s.setErr .ok) :=
  { hi with reject_sticks := fun h => absurd rfl h }

/-- R133: no key and no chaining value in UNINIT. -/
theorem EngineInv.dispose {s : State} (hi : EngineInv s) : EngineInv s.dispose :=
  { hi with
    rk_written := rfl
    cv_written := rfl
    rk_expanded := fun _ h => nomatch h
    chain_built := fun h => nomatch h }

/-- R190: a reset disposes of the context and clears ERR with STICKY. -/
theorem EngineInv.applyReset {s : State} (hi : EngineInv s) : EngineInv (applyReset s) :=
  { hi.dispose with reject_sticks := fun h => absurd rfl h }

/-- R130: a key of KEYBYTES bytes gives RK its expansion; CV is unwritten in KEYEXP. -/
theorem EngineInv.loadKey {s : State} (hi : EngineInv s) {key : List Byte}
    (hkey : key.length = s.build.keyLen.keyBytes) :
    EngineInv (s.loadKey (expand s.build.keyLen key)) :=
  { hi with
    rk_written := rfl
    cv_written := rfl
    rk_expanded := fun _ h => ⟨key, hkey, (Option.some.inj h).symm⟩
    chain_built := fun h => nomatch h }

/-- R131, R132: a build with a chaining mode and a loaded key can enter CHSET. -/
theorem EngineInv.loadIv {s : State} (hi : EngineInv s) (hchain : s.build.enChain = true)
    (hkey : s.phase.hasKey = true) (iv : Block) : EngineInv (s.loadIv iv) :=
  { hi with
    rk_written := hi.rk_written.trans hkey
    cv_written := rfl
    chain_built := fun _ => hchain }

theorem EngineInv.setBuf {s : State} (hi : EngineInv s) {m : Memory} (hwf : m.wf = true)
    (hbelow : m.below s.build.bufSize = true) : EngineInv (s.setBuf m) :=
  { hi with
    buf_wf := hwf
    buf_below := hbelow }

/-- R150, R151, R160: a loop over a range inside BUF, from a phase with a chaining value. -/
theorem EngineInv.streamed {s : State} (hi : EngineInv s) (hchain : s.phase.hasChain = true) {p n : Nat}
    {m : Memory} (hm : Worked s.build.bufSize p n s.buf m) (hfits : p + n ≤ s.build.bufSize)
    (cv : Block) : EngineInv (s.streamed cv m) :=
  { hi with
    rk_written := hi.rk_written.trans (Phase.hasKey_of_hasChain hchain)
    cv_written := rfl
    chain_built := fun _ => hi.chain_built hchain
    buf_wf := hm.wf
    buf_below := hm.below hi.buf_below hfits }

/-- R47: one block transformed in place inside BUF. -/
theorem EngineInv.setBuf_ecbBlock {s : State} (hi : EngineInv s) {ptr : BitVec 32}
    (hfits : (blockRange ptr).fits s.build = true) (f : Block → Block) :
    EngineInv (s.setBuf (ecbBlock f ptr.toNat s.buf)) :=
  hi.setBuf (ecbBlock_wf hi.buf_wf f _) (ecbBlock_below hi.buf_below f (Range.fits_iff.1 hfits))

/-- The whole blocks of a span lie in BUF when the span does. -/
theorem wholeBlocks_fit {ptr len : BitVec 32} {b : Build} (h : (spanRange ptr len).fits b = true) :
    ptr.toNat + 16 * (len.toNat / 16) ≤ b.bufSize := by
  have hfits := Range.fits_iff.1 h
  simp only [spanRange_start, spanRange_size] at hfits
  omega

/-- A command whose checks pass keeps the invariant: each check is what its update of the state asks for. -/
theorem runOf_keeps_inv {i : Instr} {s t : State} (hi : EngineInv s)
    (hc : firstFailure (checksOf i s) = none) (h : runOf i s = .next t) : EngineInv t := by
  obtain ⟨hbuild, hphase, -, hbounds⟩ := firstFailure_eq_none.1 hc
  cases i with
  | init key =>
    obtain rfl := runOf_init.1 h
    exact (hi.loadKey (of_decide_eq_true hbuild)).setErr_ok
  | initIv key iv =>
    obtain rfl := runOf_initIv.1 h
    obtain ⟨hkey, hchain⟩ := Bool.and_eq_true_iff.1 hbuild
    exact ((hi.loadKey (of_decide_eq_true hkey)).loadIv hchain rfl iv).setErr_ok
  | setIv iv =>
    obtain rfl := runOf_setIv.1 h
    exact (hi.loadIv hbuild hphase iv).setErr_ok
  | destroy =>
    obtain rfl := runOf_destroy.1 h
    exact hi.dispose.setErr_ok
  | ecbEnc ptr =>
    obtain ⟨rk, -, rfl⟩ := runOf_ecbEnc.1 h
    exact (hi.setBuf_ecbBlock hbounds _).setErr_ok
  | ecbDec ptr =>
    obtain ⟨rk, -, rfl⟩ := runOf_ecbDec.1 h
    exact (hi.setBuf_ecbBlock hbounds _).setErr_ok
  | cbcEnc ptr len =>
    obtain ⟨rk, -, cv, -, l, rfl, rfl⟩ := runOf_cbcEnc.1 h
    have hloop := cbcEncLoop_worked (cipher s.build.keyLen.nr rk) s.build.bufSize ptr.toNat
      (len.toNat / 16) ⟨cv, s.buf⟩ hi.buf_wf
    exact (hi.streamed hphase hloop (wholeBlocks_fit hbounds) _).setErr_ok
  | cbcDec ptr len =>
    obtain ⟨rk, -, cv, -, l, rfl, rfl⟩ := runOf_cbcDec.1 h
    have hloop := cbcDecLoop_worked (invCipher s.build.keyLen.nr rk) s.build.bufSize ptr.toNat
      (len.toNat / 16) ⟨cv, s.buf⟩ hi.buf_wf
    exact (hi.streamed hphase hloop (wholeBlocks_fit hbounds) _).setErr_ok
  | ctrXcrypt ptr len =>
    obtain ⟨rk, -, cv, -, l, rfl, rfl⟩ := runOf_ctrXcrypt.1 h
    have hloop := ctrLoop_worked (cipher s.build.keyLen.nr rk) s.build.bufSize ptr.toNat
      len.toNat (ctrStart cv s.buf) hi.buf_wf
    exact (hi.streamed hphase hloop (Range.fits_iff.1 hbounds) _).setErr_ok

theorem exec_keeps_inv {i : Instr} {s t : State} (hi : EngineInv s) (h : exec i s = .next t) :
    EngineInv t := by
  obtain ⟨code, -, rfl⟩ | ⟨hc, hrun⟩ := exec_eq_next.1 h
  · exact hi.takeReject code
  · exact runOf_keeps_inv hi hc hrun

theorem issue_keeps_inv {d : List Byte} {s t : State} (hi : EngineInv s) (h : issue d s = .next t) :
    EngineInv t := by
  obtain ⟨e, -, rfl⟩ | ⟨i, -, hexec⟩ := issue_eq_next.1 h
  · exact hi.takeReject .illegalCmd
  · exact exec_keeps_inv hi hexec

theorem hostAct_keeps_inv {a : HostAction} {s t : State} (hi : EngineInv s) (h : hostAct a s = .next t) :
    EngineInv t := by
  cases a with
  | command d => exact issue_keeps_inv hi h
  | writeBuf addr v =>
    obtain ⟨haddr, rfl⟩ := hostWriteBuf_eq_next.1 h
    exact hi.setBuf (Memory.write_wf hi.buf_wf addr v) (Memory.write_below v haddr hi.buf_below)
  | writeReg n v =>
    obtain ⟨-, rfl⟩ := (hostWriteReg_eq_next (v := v)).1 h
    exact hi
  | reset =>
    cases h
    exact hi.applyReset

/-- Settles O51: an idle step changes nothing, and each host action keeps the invariant. -/
theorem stepKeepsTheInvariant : Obligations.StepKeepsTheInvariant := by
  intro s t hi h
  obtain ⟨-, rfl⟩ | ⟨a, rest, -, hact⟩ := step_eq_next.1 h
  · exact hi
  · exact hostAct_keeps_inv (hi.withPending rest) hact

end Sys2Proof.Machine

/-! What a descriptor leaves in STICKY (R28, R172) and RK (R20), through the acceptance procedure. -/

namespace Sys2Proof

/-- R63: the command an opcode assembles to carries that opcode. -/
theorem assemble_opcode {kl : KeyLen} {op : Byte} {d : List Byte} {i : Instr}
    (h : assemble kl op d = some i) : i.opcode = op := by
  unfold assemble at h
  split_ifs at h <;> cases h <;> exact Eq.symm ‹_›

/-- R64: what a descriptor that decodes is made of: its first byte fixes the format, whose length it has, and
the command. -/
theorem decode_eq_ok {kl : KeyLen} {d : List Byte} {i : Instr} :
    decode kl d = .ok i ↔ ∃ op fmt, d.head? = some op ∧ formatOf op = some fmt ∧
      assemble kl op d = some i ∧ d.length = fmt.bytes kl := by
  cases d with
  | nil => simp [decode]
  | cons op rest =>
    simp only [decode, List.head?_cons, Option.some.injEq, exists_eq_left', exists_and_left]
    cases formatOf op with
    | none => simp
    | some fmt =>
      cases assemble kl op (op :: rest) with
      | none => simp
      | some j => by_cases hlen : rest.length + 1 = fmt.bytes kl <;> simp [hlen]

theorem decode_head {kl : KeyLen} {d : List Byte} {i : Instr} (h : decode kl d = .ok i) :
    d.head? = some i.opcode := by
  obtain ⟨op, fmt, hop, -, hasm, -⟩ := decode_eq_ok.1 h
  rw [hop, assemble_opcode hasm]

end Sys2Proof

namespace Sys2Proof.Machine

/-- R28, R172: an accepted command keeps STICKY, a rejected one sets it. -/
theorem exec_sticky {i : Instr} {s t : State} (h : exec i s = .next t) :
    t.sticky = (s.sticky || decide (t.err ≠ .ok)) := by
  obtain ⟨code, hcode, rfl⟩ | ⟨-, hrun⟩ := exec_eq_next.1 h
  · simp [firstFailure_ne_ok hcode]
  · obtain ⟨herr, hsticky, -, -⟩ := runOf_eq_next hrun
    simp [herr, hsticky]

/-- Settles O25: an illegal descriptor is rejected, and a legal one records the outcome of its command. -/
theorem stickyRecordsEveryReject : Obligations.StickyRecordsEveryReject := by
  intro s t d rest hpend h
  rw [step_command hpend] at h
  obtain ⟨e, -, rfl⟩ | ⟨i, -, hexec⟩ := issue_eq_next.1 h
  · simp
  · simpa using exec_sticky hexec

/-- R20: an accepted command keeps RK or has one of the three opcodes that write it. -/
theorem runOf_rk {i : Instr} {s t : State} (h : runOf i s = .next t) :
    t.rk = s.rk ∨ i.opcode = 0x01 ∨ i.opcode = 0x02 ∨ i.opcode = 0x04 := by
  cases i with
  | init => exact .inr (.inl rfl)
  | initIv => exact .inr (.inr (.inl rfl))
  | destroy => exact .inr (.inr (.inr rfl))
  | setIv => obtain rfl := runOf_setIv.1 h; exact .inl (by simp)
  | ecbEnc => obtain ⟨rk, -, rfl⟩ := runOf_ecbEnc.1 h; exact .inl (by simp)
  | ecbDec => obtain ⟨rk, -, rfl⟩ := runOf_ecbDec.1 h; exact .inl (by simp)
  | cbcEnc => obtain ⟨rk, -, cv, -, l, -, rfl⟩ := runOf_cbcEnc.1 h; exact .inl (by simp)
  | cbcDec => obtain ⟨rk, -, cv, -, l, -, rfl⟩ := runOf_cbcDec.1 h; exact .inl (by simp)
  | ctrXcrypt => obtain ⟨rk, -, cv, -, l, -, rfl⟩ := runOf_ctrXcrypt.1 h; exact .inl (by simp)

/-- Settles O53: a reject leaves RK, and the first byte of a legal descriptor is its command's opcode. -/
theorem onlyInitAndDestroyWriteTheSchedule : Obligations.OnlyInitAndDestroyWriteTheSchedule := by
  intro s t d rest hpend h hrk
  rw [step_command hpend] at h
  obtain ⟨e, -, rfl⟩ | ⟨i, hdec, hexec⟩ := issue_eq_next.1 h
  · exact absurd (takeReject_rk _ _) hrk
  · obtain ⟨code, -, rfl⟩ | ⟨-, hrun⟩ := exec_eq_next.1 hexec
    · exact absurd (takeReject_rk _ _) hrk
    · simpa [decode_head hdec] using (runOf_rk hrun).resolve_left hrk

end Sys2Proof.Machine

/-! The host's view (R28, R29, R31): the fields of the two registers, and the host's writes. -/

namespace Sys2Proof.Machine

/-- R16, R51: a step with an action pending takes it from the queue and carries it out. -/
theorem step_pending {s : State} {a : HostAction} {rest : List HostAction} (h : s.pending = a :: rest) :
    step s = hostAct a { s with pending := rest } := by
  simp only [step, takeAction, h]

/-- Settles O57: there are registers 0 and 1, and a write to either does nothing. -/
theorem registerWritesAreIgnored : Obligations.RegisterWritesAreIgnored := by
  intro s n v rest hn hpend
  rw [step_pending hpend]
  exact (hostWriteReg_eq_next (v := v)).2 ⟨hn, rfl⟩

/-- Settles O58: a write below BUF_SIZE completes, and a read after it sees that byte only. -/
theorem hostWriteChangesOneByte : Obligations.HostWriteChangesOneByte := by
  intro s a v rest hwf ha hpend
  have hread := Memory.read_write hwf a v
  refine ⟨s.buf.write a v, ?_, by simp [hread], fun x hx => by simp [hread, hx]⟩
  rw [step_pending hpend]
  exact hostWriteBuf_eq_next.2 ⟨ha, rfl⟩

/-! STATUS and CONFIG field by field: each is one part of the concatenation, lowest bits last. -/

theorem State.status_phase (s : State) : s.status.extractLsb' 0 2 = s.phase.code :=
  BitVec.extractLsb'_append_eq_right

theorem State.status_bit_two (s : State) : s.status.getLsbD 2 = false := by
  simp only [State.status, BitVec.getLsbD_append]
  simp

theorem State.status_sticky (s : State) : s.status.getLsbD 3 = s.sticky := by
  simp only [State.status, BitVec.getLsbD_append]
  simp

theorem State.status_err (s : State) : s.status.extractLsb' 4 4 = s.err.code := by
  rw [State.status, BitVec.extractLsb'_append_eq_of_le (by decide),
    BitVec.extractLsb'_append_eq_of_le (by decide), BitVec.extractLsb'_append_eq_of_le (by decide)]
  exact BitVec.extractLsb'_append_eq_right

theorem State.status_reserved (s : State) : s.status.extractLsb' 8 24 = 0 := by
  rw [State.status, BitVec.extractLsb'_append_eq_of_le (by decide),
    BitVec.extractLsb'_append_eq_of_le (by decide), BitVec.extractLsb'_append_eq_of_le (by decide)]
  exact BitVec.extractLsb'_append_eq_left

theorem State.config_keySel (s : State) : s.config.extractLsb' 0 2 = keySel s.build.keyLen :=
  BitVec.extractLsb'_append_eq_right

theorem State.config_reserved_low (s : State) : s.config.extractLsb' 2 2 = 0 := by
  rw [State.config, BitVec.extractLsb'_append_eq_of_le (by decide)]
  exact BitVec.extractLsb'_append_eq_right

theorem State.config_enEcb (s : State) : s.config.getLsbD 4 = s.build.enEcb := by
  simp only [State.config, BitVec.getLsbD_append]
  simp

theorem State.config_enCbc (s : State) : s.config.getLsbD 5 = s.build.enCbc := by
  simp only [State.config, BitVec.getLsbD_append]
  simp

theorem State.config_enCtr (s : State) : s.config.getLsbD 6 = s.build.enCtr := by
  simp only [State.config, BitVec.getLsbD_append]
  simp

theorem State.config_reserved_high (s : State) : s.config.extractLsb' 7 25 = 0 := by
  rw [State.config, BitVec.extractLsb'_append_eq_of_le (by decide),
    BitVec.extractLsb'_append_eq_of_le (by decide), BitVec.extractLsb'_append_eq_of_le (by decide),
    BitVec.extractLsb'_append_eq_of_le (by decide)]
  exact BitVec.extractLsb'_append_eq_left

/-- R29: "3 never occurs". -/
theorem keySel_ne_three (kl : KeyLen) : keySel kl ≠ 3 := by
  cases kl <;> decide

/-- Settles O55: the fields hold the codes of PHASE and ERR, which are those of R22 and R171. -/
theorem statusFieldsAreWhereTheSpecPutsThem : Obligations.StatusFieldsAreWhereTheSpecPutsThem := by
  intro s
  refine ⟨rfl, ?_, s.status_bit_two, s.status_sticky, ?_, s.status_reserved⟩
  · rw [s.status_phase]
    cases s.phase <;> rfl
  · rw [s.status_err]
    cases s.err <;> rfl

/-- Settles O56: CONFIG is a function of the build, which no step changes. -/
theorem configFieldsReportTheBuild : Obligations.ConfigFieldsReportTheBuild := by
  intro s
  refine ⟨rfl, ?_, s.config_reserved_low, s.config_enEcb, s.config_enCbc, s.config_enCtr,
    s.config_reserved_high, ?_, fun _ h => State.config_congr (step_keeps_build h)⟩
  · rw [s.config_keySel]
    cases s.build.keyLen <;> rfl
  · rw [s.config_keySel]
    exact keySel_ne_three _

end Sys2Proof.Machine

/-! The frame of BUF (R45): what lies outside a command's range reads as before. -/

namespace Sys2Proof.Machine

theorem sameOutside_refl (r : Range) (m : Memory) : sameOutside r m m := fun _ _ => rfl

/-- R47: an ECB command writes its block and nothing else. -/
theorem ecbBlock_sameOutside {m : Memory} (h : m.wf = true) (f : Block → Block) (ptr : BitVec 32) :
    sameOutside (blockRange ptr) m (ecbBlock f ptr.toNat m) := fun _ ha =>
  ecbBlock_read_out h f _ (Range.covers_eq_false.1 ha)

/-- A loop that works through no more than `len` bytes from `ptr` on stays in their span. -/
theorem Worked.sameOutside {b n : Nat} {ptr len : BitVec 32} {m0 m : Memory}
    (h : Worked b ptr.toNat n m0 m) (hn : n ≤ len.toNat) : sameOutside (spanRange ptr len) m0 m := by
  intro a ha
  have hout := Range.covers_eq_false.1 ha
  simp only [spanRange_start, spanRange_size] at hout
  exact h.out a (by omega)

/-- R45: an accepted context command keeps BUF; an accepted mode command has its block or its loop in its
range. -/
theorem runOf_sameOutside {i : Instr} {s t : State} (hwf : s.buf.wf = true) (h : runOf i s = .next t) :
    sameOutside (touchedRange i) s.buf t.buf := by
  cases i with
  | init => obtain rfl := runOf_init.1 h; exact sameOutside_refl _ _
  | initIv => obtain rfl := runOf_initIv.1 h; exact sameOutside_refl _ _
  | setIv => obtain rfl := runOf_setIv.1 h; exact sameOutside_refl _ _
  | destroy => obtain rfl := runOf_destroy.1 h; exact sameOutside_refl _ _
  | ecbEnc ptr =>
    obtain ⟨rk, -, rfl⟩ := runOf_ecbEnc.1 h
    rw [State.setErr_buf, State.setBuf_buf]
    exact ecbBlock_sameOutside hwf _ ptr
  | ecbDec ptr =>
    obtain ⟨rk, -, rfl⟩ := runOf_ecbDec.1 h
    rw [State.setErr_buf, State.setBuf_buf]
    exact ecbBlock_sameOutside hwf _ ptr
  | cbcEnc ptr len =>
    obtain ⟨rk, -, cv, -, l, rfl, rfl⟩ := runOf_cbcEnc.1 h
    have hloop := cbcEncLoop_worked (cipher s.build.keyLen.nr rk) s.build.bufSize ptr.toNat
      (len.toNat / 16) ⟨cv, s.buf⟩ hwf
    exact hloop.sameOutside (Nat.mul_div_le _ _)
  | cbcDec ptr len =>
    obtain ⟨rk, -, cv, -, l, rfl, rfl⟩ := runOf_cbcDec.1 h
    have hloop := cbcDecLoop_worked (invCipher s.build.keyLen.nr rk) s.build.bufSize ptr.toNat
      (len.toNat / 16) ⟨cv, s.buf⟩ hwf
    exact hloop.sameOutside (Nat.mul_div_le _ _)
  | ctrXcrypt ptr len =>
    obtain ⟨rk, -, cv, -, l, rfl, rfl⟩ := runOf_ctrXcrypt.1 h
    have hloop := ctrLoop_worked (cipher s.build.keyLen.nr rk) s.build.bufSize ptr.toNat
      len.toNat (ctrStart cv s.buf) hwf
    exact hloop.sameOutside le_rfl

/-- Settles O48: a reject keeps BUF, and an accepted command writes inside its range. -/
theorem noCommandWritesOutsideItsRange : Obligations.NoCommandWritesOutsideItsRange := by
  intro i s t hwf h
  obtain ⟨code, -, rfl⟩ | ⟨-, hrun⟩ := exec_eq_next.1 h
  · exact sameOutside_refl _ _
  · exact runOf_sameOutside hwf hrun

end Sys2Proof.Machine

/-! Descriptors (R61 to R65): each operand is a slice of the descriptor, so a descriptor of its format's length
assembles to a command exactly when it spells it. -/

namespace Sys2Proof

/-- The `n` bytes of a sequence from offset `o`, read one by one. -/
theorem take_drop_eq_map_byteAt {x : List Byte} {o n : Nat} (h : o + n ≤ x.length) :
    (x.drop o).take n = (List.range n).map fun k => byteAt x (o + k) := by
  apply List.ext_getElem
  · simp only [List.length_take, List.length_drop, List.length_map, List.length_range]
    omega
  · intro k hk _
    have hk : k < n := (List.length_take ▸ hk).trans_le (Nat.min_le_left ..)
    simp [byteAt_eq_getElem (show o + k < x.length by omega)]

/-- R62: the `iv` operand is sixteen bytes of the descriptor as they stand. -/
theorem blockAt_toList {x : List Byte} {o : Nat} (h : o + 16 ≤ x.length) :
    (blockAt x o).toList = (x.drop o).take 16 := (take_drop_eq_map_byteAt h).symm

theorem Block.toList_injective {a b : Block} (h : a.toList = b.toList) : a = b :=
  Block.ext_byte fun _ _ => by rw [Block.byte, h, Block.byte]

/-- R62: a 32-bit operand is determined by its four bytes. -/
theorem beBytes_injective {v w : BitVec 32} (h : beBytes v = beBytes w) : v = w := by
  simp only [beBytes, List.cons.injEq, ← BitVec.toNat_inj, BitVec.toNat_ofNat, and_true] at h
  apply BitVec.eq_of_toNat_eq
  omega

/-- R62: the bytes of a 32-bit operand are four bytes of the descriptor as they stand. -/
theorem beBytes_beWord {x : List Byte} {o : Nat} (h : o + 4 ≤ x.length) :
    beBytes (beWord x o) = (x.drop o).take 4 := by
  rw [take_drop_eq_map_byteAt h]
  simp only [beBytes, beWord, List.range, List.range.loop, List.map_cons, List.map_nil, List.cons.injEq,
    ← BitVec.toNat_inj, BitVec.toNat_ofNat, and_true, Nat.add_zero]
  omega

theorem blockAt_eq_iff {x : List Byte} {o : Nat} {b : Block} (h : o + 16 ≤ x.length) :
    blockAt x o = b ↔ (x.drop o).take 16 = b.toList := by
  rw [← blockAt_toList h]
  exact ⟨congrArg _, Block.toList_injective⟩

theorem beWord_eq_iff {x : List Byte} {o : Nat} {w : BitVec 32} (h : o + 4 ≤ x.length) :
    beWord x o = w ↔ (x.drop o).take 4 = beBytes w := by
  rw [← beBytes_beWord h]
  exact ⟨congrArg _, beBytes_injective⟩

/-- Format K: the operand bytes are the key. -/
theorem keyOperand_eq_drop {kl : KeyLen} {d : List Byte} (h : d.length = 1 + kl.keyBytes) :
    keyOperand kl d = d.drop 1 :=
  List.take_of_length_le (by simp [h])

/-- Format KV: the operand bytes are the key, then the iv. -/
theorem keyIvOperands_iff {kl : KeyLen} {d key : List Byte} {iv : Block}
    (h : d.length = 17 + kl.keyBytes) :
    keyOperand kl d = key ∧ blockAt d (1 + kl.keyBytes) = iv ↔ d.drop 1 = key ++ iv.toList := by
  have hiv : (d.drop (1 + kl.keyBytes)).take 16 = (d.drop 1).drop kl.keyBytes := by
    rw [List.drop_drop]
    exact List.take_of_length_le (by simp [h]; omega)
  rw [blockAt_eq_iff (by omega), keyOperand, hiv]
  constructor
  · rintro ⟨rfl, hblock⟩
    rw [← hblock, List.take_append_drop]
  · intro hd
    have hkey : key.length = kl.keyBytes := by
      have hlen := congrArg List.length hd
      simp only [List.length_drop, List.length_append, Block.toList_length] at hlen
      omega
    simp [hd, ← hkey]

/-- Format V: the operand bytes are the iv. -/
theorem ivOperand_iff {d : List Byte} {iv : Block} (h : d.length = 17) :
    blockAt d 1 = iv ↔ d.drop 1 = iv.toList := by
  rw [blockAt_eq_iff h.ge, List.take_of_length_le (by simp [h])]

/-- Format P: the operand bytes are `ptr`. -/
theorem ptrOperand_iff {d : List Byte} {ptr : BitVec 32} (h : d.length = 5) :
    beWord d 1 = ptr ↔ d.drop 1 = beBytes ptr := by
  rw [beWord_eq_iff h.ge, List.take_of_length_le (by simp [h])]

/-- Format PL: the operand bytes are `ptr`, then `len`. -/
theorem ptrLenOperands_iff {d : List Byte} {ptr len : BitVec 32} (h : d.length = 9) :
    beWord d 1 = ptr ∧ beWord d 5 = len ↔ d.drop 1 = beBytes ptr ++ beBytes len := by
  have hlen : (d.drop 5).take 4 = (d.drop 1).drop 4 := by
    rw [List.drop_drop]
    exact List.take_of_length_le (by simp [h])
  rw [beWord_eq_iff (by omega), beWord_eq_iff h.ge, hlen]
  constructor
  · rintro ⟨hp, hl⟩
    rw [← hp, ← hl, List.take_append_drop]
  · intro hd
    rw [hd]
    exact ⟨rfl, rfl⟩

/-- R61, R62: a descriptor of the command's length assembles to it exactly when its bytes after the opcode are
the command's operands. -/
theorem assemble_opcode_iff {kl : KeyLen} {d : List Byte} {i : Instr} (h : d.length = i.format.bytes kl) :
    assemble kl i.opcode d = some i ↔ d.drop 1 = i.operandBytes := by
  cases i with
  | init => simp [assemble, Instr.opcode, Instr.operandBytes, keyOperand_eq_drop h]
  | initIv => simpa [assemble, Instr.opcode, Instr.operandBytes] using keyIvOperands_iff h
  | setIv => simpa [assemble, Instr.opcode, Instr.operandBytes] using ivOperand_iff h
  | destroy =>
    have hd : d.drop 1 = [] := List.drop_eq_nil_of_le h.le
    simp [assemble, Instr.opcode, Instr.operandBytes, hd, -List.drop_one]
  | ecbEnc | ecbDec => simpa [assemble, Instr.opcode, Instr.operandBytes] using ptrOperand_iff h
  | cbcEnc | cbcDec | ctrXcrypt => simpa [assemble, Instr.opcode, Instr.operandBytes] using ptrLenOperands_iff h

/-- R61, R63: the shape of every command's descriptor, from the lemma of each. -/
theorem encodingShape (i : Instr) : Laws.EncodingShape.Statement i := by
  cases i with
  | init key => exact Laws.EncodingShape.init key
  | initIv key iv => exact Laws.EncodingShape.initIv key iv
  | setIv iv => exact Laws.EncodingShape.setIv iv
  | destroy => exact Laws.EncodingShape.destroy
  | ecbEnc ptr => exact Laws.EncodingShape.ecbEnc ptr
  | ecbDec ptr => exact Laws.EncodingShape.ecbDec ptr
  | cbcEnc ptr len => exact Laws.EncodingShape.cbcEnc ptr len
  | cbcDec ptr len => exact Laws.EncodingShape.cbcDec ptr len
  | ctrXcrypt ptr len => exact Laws.EncodingShape.ctrXcrypt ptr len

/-- R61: well formed is to have the length of the format; only a key can have another one. -/
theorem wf_iff_encode_length {kl : KeyLen} {i : Instr} :
    i.wf kl = true ↔ (encode i).length = i.format.bytes kl := by
  refine ⟨fun h => (encodingShape i kl h).2.1, fun h => ?_⟩
  cases i with
  | init key =>
    have h : key.length + 1 = 1 + kl.keyBytes := h
    simp only [Instr.wf, beq_iff_eq]
    omega
  | initIv key iv =>
    have h : (key ++ iv.toList).length + 1 = 17 + kl.keyBytes := h
    simp only [List.length_append, Block.toList_length] at h
    simp only [Instr.wf, beq_iff_eq]
    omega
  | setIv | destroy | ecbEnc | ecbDec | cbcEnc | cbcDec | ctrXcrypt => rfl

theorem formatOf_opcode (i : Instr) : formatOf i.opcode = some i.format := by
  cases i <;> rfl

/-- R64: a byte string decodes to a command exactly when it is the descriptor of that well-formed command. -/
theorem decode_eq_ok_iff_encode {kl : KeyLen} {d : List Byte} {i : Instr} :
    decode kl d = .ok i ↔ encode i = d ∧ i.wf kl = true := by
  rw [decode_eq_ok]
  constructor
  · rintro ⟨op, fmt, hhead, hfmt, hasm, hlen⟩
    obtain rfl := assemble_opcode hasm
    obtain rfl : i.format = fmt := Option.some.inj ((formatOf_opcode i).symm.trans hfmt)
    have henc : encode i = d := by
      obtain ⟨rest, rfl⟩ := List.head?_eq_some_iff.1 hhead
      exact congrArg _ ((assemble_opcode_iff hlen).1 hasm).symm
    exact ⟨henc, wf_iff_encode_length.2 (henc ▸ hlen)⟩
  · rintro ⟨rfl, hwf⟩
    have hlen := wf_iff_encode_length.1 hwf
    exact ⟨i.opcode, i.format, rfl, formatOf_opcode i, (assemble_opcode_iff hlen).2 rfl, hlen⟩

/-- Settles O12: a well-formed command's descriptor decodes to the command it is the descriptor of. -/
theorem decodeOfEncodeIsTheCommand : Obligations.DecodeOfEncodeIsTheCommand :=
  fun _ _ hwf => decode_eq_ok_iff_encode.2 ⟨rfl, hwf⟩

/-- Settles O13: no byte of a descriptor that decodes is outside its opcode and its operands' slices. -/
theorem encodeOfDecodeIsTheDescriptor : Obligations.EncodeOfDecodeIsTheDescriptor :=
  fun _ _ _ => decode_eq_ok_iff_encode.1

end Sys2Proof

/-! The opcode map (R63): its rows are the formats of the nine commands. -/

namespace Sys2Proof.Machine

/-- R61, R63: the opcode map with the lengths of the formats. -/
theorem commandRows_eq (b : Build) : commandRows b =
    [⟨0x01, Format.k.bytes b.keyLen, true⟩, ⟨0x02, Format.kv.bytes b.keyLen, b.enChain⟩,
     ⟨0x03, Format.v.bytes b.keyLen, b.enChain⟩, ⟨0x04, Format.n.bytes b.keyLen, true⟩,
     ⟨0x10, Format.p.bytes b.keyLen, b.enEcb⟩, ⟨0x11, Format.p.bytes b.keyLen, b.enEcb⟩,
     ⟨0x20, Format.pl.bytes b.keyLen, b.enCbc⟩, ⟨0x21, Format.pl.bytes b.keyLen, b.enCbc⟩,
     ⟨0x30, Format.pl.bytes b.keyLen, b.enCtr⟩] := by
  obtain ⟨kl, ecb, cbc, ctr, size⟩ := b
  cases kl <;> rfl

/-- The length of a row is that of its opcode's format. -/
theorem formatOf_row {b : Build} {row : CommandRow} (h : row ∈ commandRows b) :
    ∃ fmt, formatOf row.op = some fmt ∧ row.bytes = fmt.bytes b.keyLen := by
  simp only [commandRows_eq, List.mem_cons, List.not_mem_nil, or_false] at h
  rcases h with rfl | rfl | rfl | rfl | rfl | rfl | rfl | rfl | rfl <;> exact ⟨_, rfl, rfl⟩

/-- Every command has a row, with its opcode and the length of its format. -/
theorem exists_row (b : Build) (i : Instr) :
    ∃ row ∈ commandRows b, row.op = i.opcode ∧ row.bytes = i.format.bytes b.keyLen := by
  cases i <;> simp [commandRows_eq, Instr.opcode, Instr.format]

/-- R63: the decoder's two tables assign the same opcodes. -/
theorem assemble_of_formatOf {op : Byte} {fmt : Format} (h : formatOf op = some fmt) (kl : KeyLen)
    (d : List Byte) : ∃ i, assemble kl op d = some i := by
  unfold formatOf at h
  unfold assemble
  split_ifs at h ⊢ <;> exact ⟨_, rfl⟩

/-- Settles O14: a command has its row, and a row's opcode has its format and its command. -/
theorem decodableIsOpcodeAndLength : Obligations.DecodableIsOpcodeAndLength := by
  intro b d
  constructor
  · rintro ⟨i, h⟩
    obtain ⟨rfl, hwf⟩ := decode_eq_ok_iff_encode.1 h
    obtain ⟨row, hrow, hop, hbytes⟩ := exists_row b i
    exact ⟨row, hrow, congrArg some hop.symm, (wf_iff_encode_length.1 hwf).trans hbytes.symm⟩
  · rintro ⟨row, hrow, hhead, hlen⟩
    obtain ⟨fmt, hfmt, hbytes⟩ := formatOf_row hrow
    obtain ⟨i, hasm⟩ := assemble_of_formatOf hfmt b.keyLen d
    exact ⟨i, decode_eq_ok.2 ⟨row.op, fmt, hhead, hfmt, hasm, hlen.trans hbytes⟩⟩

/-- Settles O15: each word is evaluated by the decoder. -/
theorem workedDescriptorsDecode : Obligations.WorkedDescriptorsDecode :=
  ⟨rfl, rfl, rfl, rfl, rfl, rfl, rfl, rfl, rfl⟩

/-- Settles O17: the step issues the descriptor, and issuing begins by decoding. -/
theorem stepRunsTheDecodedCommand : Obligations.StepRunsTheDecodedCommand := by
  intro s d rest hpend
  rw [step_command hpend]
  exact ⟨fun i h => by simp only [issue, h], fun e h => issue_eq_next.2 (.inl ⟨e, h, rfl⟩)⟩

end Sys2Proof.Machine

/-! The pseudo-commands (R69). -/

namespace Sys2Proof.Machine

/-- R69: the addresses of whole blocks, none of them past 2^32 − 1. -/
theorem blockAddresses_of_fits {ptr n : BitVec 32} (hn : n.toNat % 16 = 0)
    (hlast : ptr.toNat + n.toNat < 2 ^ 32 + 16) :
    blockAddresses ptr n =
      some ((List.range (n.toNat / 16)).map fun j => BitVec.ofNat 32 (ptr.toNat + 16 * j)) :=
  if_pos ⟨hn, by omega⟩

/-- R68: a ragged count, or a last block at no address of 32 bits. -/
theorem blockAddresses_eq_none {ptr n : BitVec 32}
    (h : n.toNat % 16 ≠ 0 ∨ 2 ^ 32 + 16 ≤ ptr.toNat + n.toNat) : blockAddresses ptr n = none := by
  have hptr := ptr.isLt
  exact if_neg (by omega)

/-- The address of the `j`-th block does not wrap. -/
theorem blockAddress_toNat {ptr n : BitVec 32} (hlast : ptr.toNat + n.toNat < 2 ^ 32 + 16) {j : Nat}
    (hj : j < n.toNat / 16) :
    (BitVec.ofNat 32 (ptr.toNat + 16 * j)).toNat = ptr.toNat + 16 * j := by
  rw [BitVec.toNat_ofNat]
  exact Nat.mod_eq_of_lt (by omega)

theorem expand_ecbEncN (ptr n : BitVec 32) :
    (AsmCommand.ecbEncN ptr n).expand = (blockAddresses ptr n).map (List.map Instr.ecbEnc) := rfl

theorem expand_ecbDecN (ptr n : BitVec 32) :
    (AsmCommand.ecbDecN ptr n).expand = (blockAddresses ptr n).map (List.map Instr.ecbDec) := rfl

/-- Settles O16: ECB_ENC_N and ECB_DEC_N expand over the same list of block addresses. -/
theorem pseudoCommandsExpandToCommands : Obligations.PseudoCommandsExpandToCommands := by
  refine ⟨fun _ _ _ => ⟨rfl, rfl, rfl⟩, fun ptr n hn hlast => ?_, fun ptr n h => ?_⟩
  · rw [expand_ecbEncN, expand_ecbDecN, blockAddresses_of_fits hn hlast]
    refine ⟨_, _, rfl, rfl, by simp, by simp, fun j hj => ?_⟩
    exact ⟨_, blockAddress_toNat hlast hj, by simp [hj], by simp [hj]⟩
  · rw [expand_ecbEncN, expand_ecbDecN, blockAddresses_eq_none h]
    exact ⟨rfl, rfl⟩

end Sys2Proof.Machine

/-! Which way a descriptor goes (R67, R170): the checks read the build and PHASE, and the phase table gives the
PHASE an accepted command leaves. -/

namespace Sys2Proof.Machine

/-- R170: steps 2 to 5 read the build, PHASE and the command alone. -/
theorem checksOf_congr {s s' : State} (hbuild : s.build = s'.build) (hphase : s.phase = s'.phase)
    (i : Instr) : checksOf i s = checksOf i s' := by
  cases i <;> simp only [checksOf, ecbChecks, cbcChecks, ctrChecks, hbuild, hphase]

/-- R134: with a key loaded SET_IV leaves CHSET. -/
theorem phaseTable_setIv {p : Phase} (h : p.hasKey = true) (iv : Block) :
    phaseTable (.setIv iv) p = some .chset := by
  cases p with
  | uninit => cases h
  | keyexp | chset | stream => rfl

/-- R134: with a key loaded the ECB commands leave PHASE as it is. -/
theorem phaseTable_ecb {p : Phase} (h : p.hasKey = true) (ptr : BitVec 32) :
    phaseTable (.ecbEnc ptr) p = some p ∧ phaseTable (.ecbDec ptr) p = some p := by
  cases p with
  | uninit => cases h
  | keyexp | chset | stream => exact ⟨rfl, rfl⟩

/-- R134: with a chaining value set the CBC and CTR commands leave STREAM. -/
theorem phaseTable_stream {p : Phase} (h : p.hasChain = true) (ptr len : BitVec 32) :
    phaseTable (.cbcEnc ptr len) p = some .stream ∧ phaseTable (.cbcDec ptr len) p = some .stream ∧
      phaseTable (.ctrXcrypt ptr len) p = some .stream := by
  cases p with
  | uninit | keyexp => cases h
  | chset | stream => exact ⟨rfl, rfl, rfl⟩

/-- R134: a command that passes its checks leaves the PHASE of its cell of the phase table. -/
theorem runOf_phase {i : Instr} {s t : State} (hc : firstFailure (checksOf i s) = none)
    (h : runOf i s = .next t) : phaseTable i s.phase = some t.phase := by
  obtain ⟨-, hphase, -, -⟩ := firstFailure_eq_none.1 hc
  cases i with
  | init => obtain rfl := runOf_init.1 h; rfl
  | initIv => obtain rfl := runOf_initIv.1 h; rfl
  | destroy => obtain rfl := runOf_destroy.1 h; rfl
  | setIv iv => obtain rfl := runOf_setIv.1 h; exact phaseTable_setIv hphase iv
  | ecbEnc ptr =>
    obtain ⟨rk, -, rfl⟩ := runOf_ecbEnc.1 h
    rw [State.setErr_phase, State.setBuf_phase]
    exact (phaseTable_ecb hphase ptr).1
  | ecbDec ptr =>
    obtain ⟨rk, -, rfl⟩ := runOf_ecbDec.1 h
    rw [State.setErr_phase, State.setBuf_phase]
    exact (phaseTable_ecb hphase ptr).2
  | cbcEnc ptr len =>
    obtain ⟨rk, -, cv, -, l, -, rfl⟩ := runOf_cbcEnc.1 h
    exact (phaseTable_stream hphase ptr len).1
  | cbcDec ptr len =>
    obtain ⟨rk, -, cv, -, l, -, rfl⟩ := runOf_cbcDec.1 h
    exact (phaseTable_stream hphase ptr len).2.1
  | ctrXcrypt ptr len =>
    obtain ⟨rk, -, cv, -, l, -, rfl⟩ := runOf_ctrXcrypt.1 h
    exact (phaseTable_stream hphase ptr len).2.2

/-- R67, R170: a command that completes in two engines of one build and PHASE fails the same check in both, or
passes them all in both. -/
theorem exec_outcome_congr {i : Instr} {s s' t t' : State} (hbuild : s.build = s'.build)
    (hphase : s.phase = s'.phase) (h : exec i s = .next t) (h' : exec i s' = .next t') :
    t.err = t'.err ∧ t.phase = t'.phase := by
  have hchecks := checksOf_congr hbuild hphase i
  obtain ⟨code, hcode, rfl⟩ | ⟨hpass, hrun⟩ := exec_eq_next.1 h <;>
    obtain ⟨code', hcode', rfl⟩ | ⟨hpass', hrun'⟩ := exec_eq_next.1 h'
  · rw [hchecks, hcode'] at hcode
    exact ⟨(Option.some.inj hcode).symm, hphase⟩
  · cases hcode.symm.trans (hchecks ▸ hpass')
  · cases hpass.symm.trans (hchecks ▸ hcode')
  · obtain ⟨herr, -, -, -⟩ := runOf_eq_next hrun
    obtain ⟨herr', -, -, -⟩ := runOf_eq_next hrun'
    refine ⟨herr.trans herr'.symm, Option.some.inj ?_⟩
    rw [← runOf_phase hpass hrun, ← runOf_phase hpass' hrun', hphase]

/-- R67: the descriptor decodes the same way in both engines. -/
theorem issue_outcome_congr {d : List Byte} {s s' t t' : State} (hbuild : s.build = s'.build)
    (hphase : s.phase = s'.phase) (h : issue d s = .next t) (h' : issue d s' = .next t') :
    t.err = t'.err ∧ t.phase = t'.phase := by
  obtain ⟨e, hdec, rfl⟩ | ⟨i, hdec, hexec⟩ := issue_eq_next.1 h <;>
    obtain ⟨e', hdec', rfl⟩ | ⟨i', hdec', hexec'⟩ := issue_eq_next.1 h' <;>
    rw [hbuild, hdec'] at hdec
  · exact ⟨rfl, hphase⟩
  · cases hdec
  · cases hdec
  · obtain rfl := Except.ok.inj hdec
    exact exec_outcome_congr hbuild hphase hexec hexec'

/-- R28: STATUS shows ERR, STICKY and PHASE and nothing else. -/
theorem State.status_congr {s t : State} (herr : s.err = t.err) (hsticky : s.sticky = t.sticky)
    (hphase : s.phase = t.phase) : s.status = t.status := by
  simp only [State.status, herr, hsticky, hphase]

/-- Settles O54: ERR and PHASE come out the same, STICKY follows from ERR (O25), and STATUS shows these. -/
theorem outcomeDoesNotDependOnKeyOrData : Obligations.OutcomeDoesNotDependOnKeyOrData := by
  intro s s' t t' d rest rest' hbuild hphase hsticky hpend hpend' h h'
  have hst : t.sticky = (s.sticky || decide (t.err ≠ .ok)) := stickyRecordsEveryReject s t d rest hpend h
  have hst' : t'.sticky = (s'.sticky || decide (t'.err ≠ .ok)) :=
    stickyRecordsEveryReject s' t' d rest' hpend' h'
  rw [step_command hpend] at h
  rw [step_command hpend'] at h'
  obtain ⟨herr, hph⟩ := issue_outcome_congr (s := { s with pending := rest })
    (s' := { s' with pending := rest' }) hbuild hphase h h'
  have hsame : t.sticky = t'.sticky := by rw [hst, hst', herr, hsticky]
  exact ⟨herr, hph, hsame, State.status_congr herr hsame hph⟩

end Sys2Proof.Machine

/-! The GaloisField unit (R80 to R82): `double` is a linear map whose kernel is zero, and `multiply` adds up the
doublings its constant selects. -/

namespace Sys2Proof.Machine

/-- R80: the test of `double` is on the high bit of its input. -/
theorem and_highBit_ne_zero_iff (b : Byte) : b &&& 0x80 ≠ 0 ↔ b.msb = true := by
  have hpow : b &&& 0x80 = if b.getLsbD 7 then 0x80 else 0 := BitVec.and_twoPow b 7
  rw [hpow, show b.msb = b.getLsbD 7 from BitVec.msb_eq_getLsbD_last b]
  cases b.getLsbD 7 <;> decide

/-- R80: the shift, plus the reduction constant where the high bit was set. -/
theorem double_eq (b : Byte) : double b = b <<< 1 ^^^ (if b.msb then 0x1B else 0) := by
  simp only [double, and_highBit_ne_zero_iff]
  split
  · rfl
  · exact BitVec.xor_zero.symm

/-- R82: the reduction is selected by one bit, so it is linear as the shift is. -/
theorem double_xor (a b : Byte) : double (a ^^^ b) = double a ^^^ double b := by
  have hreduce : (if a.msb ^^ b.msb then (0x1B : Byte) else 0) =
      (if a.msb then 0x1B else 0) ^^^ (if b.msb then 0x1B else 0) := by
    cases a.msb <;> cases b.msb <;> rfl
  simp only [double_eq, BitVec.shiftLeft_xor_distrib, BitVec.msb_xor, hreduce]
  ac_rfl

theorem doubled_xor (k : Nat) (a b : Byte) : doubled k (a ^^^ b) = doubled k a ^^^ doubled k b := by
  induction k with
  | zero => rfl
  | succ k ih => simp only [doubled, ih, double_xor]

/-- R81: what bit `k` of the constant `c` adds to the product, `c_k·double^k(a)`. -/
def selectedDoubling (a c : Byte) (k : Nat) : Byte := if c.getLsbD k then doubled k a else 0

theorem selectedDoubling_xor (a b c : Byte) (k : Nat) :
    selectedDoubling (a ^^^ b) c k = selectedDoubling a c k ^^^ selectedDoubling b c k := by
  unfold selectedDoubling
  split
  · exact doubled_xor k a b
  · exact BitVec.xor_zero.symm

/-- R81: one pass of the loop of `multiply`. -/
theorem xorIf_eq_xor_selectedDoubling (a c r : Byte) (k : Nat) :
    (if c.getLsbD k then r ^^^ doubled k a else r) = r ^^^ selectedDoubling a c k := by
  unfold selectedDoubling
  split
  · rfl
  · exact BitVec.xor_zero.symm

/-- R81: the five passes add the selected doublings. -/
theorem multiply_eq (a c : Byte) :
    multiply a c = selectedDoubling a c 0 ^^^ selectedDoubling a c 1 ^^^ selectedDoubling a c 2 ^^^
      selectedDoubling a c 3 ^^^ selectedDoubling a c 4 := by
  simp only [multiply, xorIf_eq_xor_selectedDoubling, forUp, Nat.zero_add]
  rw [BitVec.ofNat_eq_ofNat, BitVec.zero_xor]

theorem multiply_xor (a b c : Byte) : multiply (a ^^^ b) c = multiply a c ^^^ multiply b c := by
  simp only [multiply_eq, selectedDoubling_xor]
  ac_rfl

/-- R81: bits 7 to 5 of the constant are not looked at. -/
theorem multiply_congr (a : Byte) {c c' : Byte} (h : ∀ k < 5, c.getLsbD k = c'.getLsbD k) :
    multiply a c = multiply a c' :=
  forUp_congr fun k hk _ => by simp only [Nat.zero_add, h k hk]

/-- Settles O2: the doubler is linear (`double_xor`), and with it each doubling `multiply` selects. -/
theorem fieldOperationsDistributeOverXor : Obligations.FieldOperationsDistributeOverXor := fun a b c =>
  ⟨BitVec.xor_self, BitVec.xor_zero, double_xor a b, multiply_xor a b c⟩

/-- R80: the doubled number, its ninth bit dropped and the reduction made where it was set. -/
theorem double_toNat (b : Byte) : (double b).toNat =
    if b.toNat < 128 then 2 * b.toNat else (2 * b.toNat - 256) ^^^ 0x1B := by
  have hb := b.isLt
  have hshift : (b <<< 1).toNat = 2 * b.toNat % 256 := by
    rw [BitVec.toNat_shiftLeft, Nat.shiftLeft_eq, Nat.mul_comm]
  rw [double_eq, BitVec.toNat_xor, hshift]
  by_cases hlow : b.toNat < 128
  · have hmsb : b.msb = false := BitVec.msb_eq_false_iff_two_mul_lt.2 (by omega)
    simp only [hmsb, hlow, if_true]
    exact (Nat.xor_zero _).trans (Nat.mod_eq_of_lt (by omega))
  · have hmsb : b.msb = true := BitVec.msb_eq_true_iff_two_mul_ge.2 (by omega)
    have hdrop : 2 * b.toNat % 256 = 2 * b.toNat - 256 := by omega
    simp only [hmsb, hlow, if_true, if_false, hdrop]
    rfl

/-- The reduction constant is odd and a shifted byte is even, so no byte but zero doubles to zero. -/
theorem eq_zero_of_double_eq_zero {b : Byte} (h : double b = 0#8) : b = 0#8 := by
  have hnat := double_toNat b
  rw [h, BitVec.toNat_zero] at hnat
  apply BitVec.eq_of_toNat_eq
  rw [BitVec.toNat_zero]
  split at hnat
  · omega
  · have := Nat.xor_eq_zero_iff.1 hnat.symm
    omega

/-- R80: a linear map with kernel zero. -/
theorem double_injective : Function.Injective double := fun a b h =>
  BitVec.xor_eq_zero_iff.1 <| eq_zero_of_double_eq_zero <| by rw [double_xor, h, BitVec.xor_self]

/-- Settles O1: `double` is injective, and bytes are finitely many. -/
theorem doubleMultipliesByX : Obligations.DoubleMultipliesByX :=
  ⟨double_toNat, Finite.injective_iff_bijective.1 double_injective⟩

/-- R81: the mask 0x1F keeps bits 4 to 0. -/
theorem getLsbD_and_lowFive (c : Byte) {k : Nat} (hk : k < 5) : (c &&& 0x1F).getLsbD k = c.getLsbD k := by
  have hmask : ∀ j < 5, (0x1F : Byte).getLsbD j = true := by decide
  rw [BitVec.getLsbD_and, hmask k hk, Bool.and_true]

/-- Settles O3: the five passes of the loop, which reads the constant's bits 4 to 0 alone. -/
theorem multiplySelectsFiveDoublings : Obligations.MultiplySelectsFiveDoublings := fun a c =>
  ⟨multiply_eq a c, multiply_congr a fun _ hk => (getLsbD_and_lowFive c hk).symm⟩

end Sys2Proof.Machine

/-! The three tables (R90 to R92): two permutations of the bytes, each the inverse of the other, and the successive
doublings of 01. -/

namespace Sys2Proof.Machine

/-- R91: the inverse table read at each of the 256 entries of the forward one (log entry 12). -/
@[simp] theorem invSbox_sbox (v : Byte) : invSbox (sbox v) = v := by
  revert v
  decide +kernel

/-- R90: the forward table is a permutation; it has a left inverse, and bytes are finitely many. -/
theorem sbox_bijective : Function.Bijective sbox :=
  Finite.injective_iff_bijective.1 (Function.LeftInverse.injective invSbox_sbox)

/-- R91: "and vice versa". The left inverse of a permutation is its right inverse too. -/
@[simp] theorem sbox_invSbox (v : Byte) : sbox (invSbox v) = v :=
  Function.LeftInverse.rightInverse_of_surjective invSbox_sbox sbox_bijective.surjective v

/-- Settles O4: one order is read off the tables (`invSbox_sbox`), the other follows as `sbox` is a permutation. -/
theorem sboxesAreInverse : Obligations.SboxesAreInverse := fun v => ⟨invSbox_sbox v, sbox_invSbox v⟩

/-- R92: the step from each constant to the next, for the nine indices that have a next one. -/
theorem rcon_succ {j : Nat} (hfirst : 1 ≤ j) (hlast : j ≤ 9) : rcon (j + 1) = double (rcon j) := by
  interval_cases j <;> rfl

/-- Settles O5: the doublings are `rcon_succ`, and the four fixed values are entries of the table. -/
theorem roundConstantsDouble : Obligations.RoundConstantsDouble :=
  ⟨rfl, fun _ => rcon_succ, rfl, rfl, rfl⟩

end Sys2Proof.Machine

/-! The key schedule (R100 to R108): one pass of the loop appends one word, so what was written stays as the
beginning, and every word read back from the finished schedule is the one its pass computed. -/

namespace Sys2Proof

/-- A sequence reads as its beginning does, as far as that goes. -/
theorem byteAt_of_prefix {x y : List Byte} (h : x <+: y) {k : Nat} (hk : k < x.length) :
    byteAt y k = byteAt x k := by
  obtain ⟨z, rfl⟩ := h
  exact byteAt_append_left hk

/-- R101: the words of the beginning are words of the whole. -/
theorem wordAt_of_prefix {x y : List Byte} (h : x <+: y) {i : Nat} (hi : 4 * i + 4 ≤ x.length) :
    wordAt y i = wordAt x i := by
  ext1 <;> exact byteAt_of_prefix h (by omega)

/-- R101: a word appended to `i` whole words is word `i`. -/
theorem wordAt_append_toList {x : List Byte} {i : Nat} (hx : x.length = 4 * i) (w : Word) :
    wordAt (x ++ w.toList) i = w := by
  have hbyte (k : Nat) (hk : k < 4) : byteAt (x ++ w.toList) (4 * i + k) = byteAt w.toList k :=
    hx ▸ byteAt_append_right hk
  ext1
  · exact hbyte 0 (by decide)
  · exact hbyte 1 (by decide)
  · exact hbyte 2 (by decide)
  · exact hbyte 3 (by decide)

/-- R5: of the three key lengths only 256 bits make eight words. -/
theorem KeyLen.nk_eq_eight_iff (kl : KeyLen) : kl.nk = 8 ↔ kl = .k256 := by cases kl <;> decide

end Sys2Proof

namespace Sys2Proof.Machine

/-- R103: the schedule after `n` passes of the loop, `nk + n` words long. -/
def partialSchedule (nk : Nat) (key : List Byte) (n : Nat) : List Byte :=
  forUp nk n (fun i rk => rk ++ (scheduleWord nk rk i).toList) key

theorem expand_eq_partialSchedule (kl : KeyLen) (key : List Byte) :
    expand kl key = partialSchedule kl.nk key (kl.rkWords - kl.nk) := rfl

theorem partialSchedule_succ (nk : Nat) (key : List Byte) (n : Nat) :
    partialSchedule nk key (n + 1) = partialSchedule nk key n ++
      (scheduleWord nk (partialSchedule nk key n) (nk + n)).toList := rfl

theorem partialSchedule_length {nk : Nat} {key : List Byte} (hkey : key.length = 4 * nk) (n : Nat) :
    (partialSchedule nk key n).length = 4 * (nk + n) := by
  rw [partialSchedule, expand_loop_length, hkey, Nat.mul_add]

/-- R103: later passes leave the words already written. -/
theorem partialSchedule_prefix (nk : Nat) (key : List Byte) {m n : Nat} (h : m ≤ n) :
    partialSchedule nk key m <+: partialSchedule nk key n := by
  induction n, h using Nat.le_induction with
  | base => exact List.prefix_rfl
  | succ n _ ih =>
    rw [partialSchedule_succ]
    exact ih.trans (List.prefix_append _ _)

/-- R103: "word i from words i−1 and i−Nk, both already written": the word of pass `i` reads nothing else. -/
theorem scheduleWord_of_prefix {nk i : Nat} {rk rk' : List Byte} (h : rk <+: rk') (hnk : 0 < nk)
    (hi : nk ≤ i) (hlen : rk.length = 4 * i) : scheduleWord nk rk' i = scheduleWord nk rk i := by
  rw [scheduleWord, scheduleWord, wordAt_of_prefix h (i := i - nk) (by omega),
    wordAt_of_prefix h (i := i - 1) (by omega)]

/-- R102: the schedule begins with the key. -/
theorem key_prefix_expand (kl : KeyLen) (key : List Byte) : key <+: expand kl key :=
  key_prefix_expand_loop kl.nk _ key

/-- R100: RKBYTES bytes. -/
theorem expand_length {kl : KeyLen} {key : List Byte} (hkey : key.length = kl.keyBytes) :
    (expand kl key).length = kl.rkBytes := by
  have hle := kl.nk_le_rkWords
  rw [expand_eq_partialSchedule, partialSchedule_length (hkey.trans kl.keyBytes_eq), KeyLen.rkBytes]
  omega

/-- R103: each word from Nk on is the one the loop computes, read from the finished schedule: pass `i - Nk`
wrote it, and later passes change neither it nor the words it was computed from. -/
theorem wordAt_expand {kl : KeyLen} {key : List Byte} (hkey : key.length = kl.keyBytes) {i : Nat}
    (hfirst : kl.nk ≤ i) (hlast : i < kl.rkWords) :
    wordAt (expand kl key) i = scheduleWord kl.nk (expand kl key) i := by
  obtain ⟨n, rfl⟩ := Nat.exists_eq_add_of_le hfirst
  have hlen := partialSchedule_length (hkey.trans kl.keyBytes_eq)
  have hbefore : partialSchedule kl.nk key n <+: expand kl key :=
    partialSchedule_prefix kl.nk key (by omega)
  have hafter : partialSchedule kl.nk key (n + 1) <+: expand kl key :=
    partialSchedule_prefix kl.nk key (by omega)
  calc wordAt (expand kl key) (kl.nk + n)
      = wordAt (partialSchedule kl.nk key (n + 1)) (kl.nk + n) :=
        wordAt_of_prefix hafter (hlen (n + 1)).ge
    _ = scheduleWord kl.nk (partialSchedule kl.nk key n) (kl.nk + n) :=
        partialSchedule_succ kl.nk key n ▸ wordAt_append_toList (hlen n) _
    _ = scheduleWord kl.nk (expand kl key) (kl.nk + n) :=
        (scheduleWord_of_prefix hbefore (Nat.pos_of_ne_zero kl.nk_ne_zero) hfirst (hlen n)).symm

/-- R107: the extra substitution is the 256-bit key's alone, whose period is eight words. -/
theorem extraStep_iff (kl : KeyLen) (i : Nat) :
    kl.nk = 8 ∧ i % kl.nk = 4 ↔ kl = .k256 ∧ i % 8 = 4 := by
  rw [← kl.nk_eq_eight_iff]
  exact and_congr_right fun h => by rw [h]

/-- R103, R107: the three cases of `temp`, the second named by the key length. -/
theorem scheduleTemp_eq (kl : KeyLen) (i : Nat) (prev : Word) :
    scheduleTemp kl.nk i prev =
      if i % kl.nk = 0 then addRcon (subWord (rotWord prev)) (i / kl.nk)
      else if kl = .k256 ∧ i % 8 = 4 then subWord prev
      else prev :=
  if_congr Iff.rfl rfl (if_congr (extraStep_iff kl i) rfl rfl)

/-- Settles O6: the loop appends to the key, and the recurrence is `wordAt_expand` with `temp` by its cases. -/
theorem expandFollowsTheWordRecurrence : Obligations.ExpandFollowsTheWordRecurrence := by
  intro kl key hkey
  refine ⟨expand_length hkey, fun k hk => ?_, fun i hfirst hlast => ?_⟩
  · exact byteAt_of_prefix (key_prefix_expand kl key) (hkey ▸ hk)
  · rw [wordAt_expand hkey hfirst hlast, scheduleWord, scheduleTemp_eq]
    rfl

/-- Settles O7: two keys of one length that begin the same schedule are equal (R102). -/
theorem differentKeysGiveDifferentSchedules : Obligations.DifferentKeysGiveDifferentSchedules := by
  intro kl key key' hkey hkey' hsame
  have hlen : key.length = key'.length := hkey.trans hkey'.symm
  have hpre : key <+: expand kl key' := hsame ▸ key_prefix_expand kl key
  exact (List.prefix_of_prefix_length_le hpre (key_prefix_expand kl key') hlen.le).eq_of_length hlen

end Sys2Proof.Machine

/-! The State by column and row (R110), the two row shifts as index permutations (R113, R120), and the two column
mixings (R114, R122) as circulant sums, linear where their terms are. -/

namespace Sys2Proof

/-- R110: "The byte in row r (0..3), column c (0..3) is `s[4c + r]`". -/
theorem Block.byte_eq_cell (s : Block) (c r : Fin 4) : s.byte (4 * c + r) = s.cell c r := by
  fin_cases c <;> fin_cases r <;> rfl

@[simp] theorem Block.cell_ofCells (f : Fin 4 → Fin 4 → Byte) (c r : Fin 4) :
    (Block.ofCells f).cell c r = f c r := by
  fin_cases c <;> fin_cases r <;> rfl

/-- R110: the sixteen indices are the `4c + r` of the four columns and four rows. -/
theorem exists_column_row {k : Nat} (hk : k < 16) : ∃ c r : Fin 4, k = 4 * c + r :=
  ⟨⟨k / 4, by omega⟩, ⟨k % 4, by omega⟩, (Nat.div_add_mod k 4).symm⟩

end Sys2Proof

namespace Sys2Proof.Machine

@[simp] theorem shiftRows_cell (s : Block) (c r : Fin 4) : (shiftRows s).cell c r = s.cell (c + r) r :=
  Block.cell_ofCells _ c r

@[simp] theorem invShiftRows_cell (s : Block) (c r : Fin 4) :
    (invShiftRows s).cell c r = s.cell (c - r) r :=
  Block.cell_ofCells _ c r

/-- R113: `s'[4c + r] = s[4·((c + r) mod 4) + r]`. -/
theorem shiftRows_byte (s : Block) (c r : Fin 4) :
    (shiftRows s).byte (4 * c + r) = s.byte (4 * (c + r : Fin 4) + r) := by
  rw [Block.byte_eq_cell, shiftRows_cell, Block.byte_eq_cell]

/-- R120: `s'[4c + r] = s[4·((c − r) mod 4) + r]`. -/
theorem invShiftRows_byte (s : Block) (c r : Fin 4) :
    (invShiftRows s).byte (4 * c + r) = s.byte (4 * (c - r : Fin 4) + r) := by
  rw [Block.byte_eq_cell, invShiftRows_cell, Block.byte_eq_cell]

/-- Settles O8: at index `4c + r` the tables hold the two rotated indices. -/
theorem shiftRowsFollowTheIndexTables : Obligations.ShiftRowsFollowTheIndexTables := by
  intro s k hk
  obtain ⟨c, r, rfl⟩ := exists_column_row hk
  rw [shiftRows_byte, invShiftRows_byte]
  exact ⟨congrArg s.byte (by decide +revert), congrArg s.byte (by decide +revert)⟩

/-- R114, R122: a column mixed by four byte maps, each row using them one place further to the right. -/
def circulant (f₀ f₁ f₂ f₃ : Byte → Byte) (a : Word) : Word :=
  ⟨f₀ a.b0 ^^^ f₁ a.b1 ^^^ f₂ a.b2 ^^^ f₃ a.b3,
   f₃ a.b0 ^^^ f₀ a.b1 ^^^ f₁ a.b2 ^^^ f₂ a.b3,
   f₂ a.b0 ^^^ f₃ a.b1 ^^^ f₀ a.b2 ^^^ f₁ a.b3,
   f₁ a.b0 ^^^ f₂ a.b1 ^^^ f₃ a.b2 ^^^ f₀ a.b3⟩

theorem mixColumn_eq_circulant : mixColumn = circulant double triple id id := rfl

theorem invMixColumn_eq_circulant :
    invMixColumn = circulant (multiply · 0x0E) (multiply · 0x0B) (multiply · 0x0D) (multiply · 0x09) := rfl

/-- The sum of linear maps is linear. -/
theorem circulant_xor {f₀ f₁ f₂ f₃ : Byte → Byte}
    (h₀ : ∀ a b, f₀ (a ^^^ b) = f₀ a ^^^ f₀ b) (h₁ : ∀ a b, f₁ (a ^^^ b) = f₁ a ^^^ f₁ b)
    (h₂ : ∀ a b, f₂ (a ^^^ b) = f₂ a ^^^ f₂ b) (h₃ : ∀ a b, f₃ (a ^^^ b) = f₃ a ^^^ f₃ b) (x y : Word) :
    circulant f₀ f₁ f₂ f₃ (x.xor y) = (circulant f₀ f₁ f₂ f₃ x).xor (circulant f₀ f₁ f₂ f₃ y) := by
  ext1 <;> simp only [circulant, Word.xor, h₀, h₁, h₂, h₃] <;> ac_rfl

/-- R114: on four equal bytes every row is one sum, its terms rotated. -/
theorem circulant_equalBytes {f₀ f₁ f₂ f₃ : Byte → Byte} {v : Byte}
    (hsum : f₀ v ^^^ f₁ v ^^^ f₂ v ^^^ f₃ v = v) : circulant f₀ f₁ f₂ f₃ ⟨v, v, v, v⟩ = ⟨v, v, v, v⟩ := by
  rw [circulant, Word.mk.injEq]
  exact ⟨hsum, .trans (by ac_rfl) hsum, .trans (by ac_rfl) hsum, .trans (by ac_rfl) hsum⟩

theorem triple_xor (a b : Byte) : triple (a ^^^ b) = triple a ^^^ triple b := by
  simp only [triple, double_xor]
  ac_rfl

/-- R81: a sum of constants selects the doublings that one of the two selects. -/
theorem selectedDoubling_xor_const (a c c' : Byte) (k : Nat) :
    selectedDoubling a (c ^^^ c') k = selectedDoubling a c k ^^^ selectedDoubling a c' k := by
  simp only [selectedDoubling, BitVec.getLsbD_xor]
  cases c.getLsbD k <;> cases c'.getLsbD k <;> simp

theorem multiply_xor_const (a c c' : Byte) : multiply a (c ^^^ c') = multiply a c ^^^ multiply a c' := by
  simp only [multiply_eq, selectedDoubling_xor_const]
  ac_rfl

/-- R81: only bit 0 of the constant 01 is set, and it selects the byte undoubled. -/
theorem multiply_one (a : Byte) : multiply a 0x01 = a := by
  simp [multiply_eq, selectedDoubling, doubled]

/-- R114: "the coefficients of each row sum to {01}". -/
theorem mixCoefficients_sum (v : Byte) : double v ^^^ triple v ^^^ id v ^^^ id v = v := by
  simp [triple]

/-- R122: so do 0E, 0B, 0D and 09. -/
theorem invMixCoefficients_sum (v : Byte) :
    multiply v 0x0E ^^^ multiply v 0x0B ^^^ multiply v 0x0D ^^^ multiply v 0x09 = v := by
  simp only [← multiply_xor_const]
  exact multiply_one v

theorem mixColumn_xor (x y : Word) : mixColumn (x.xor y) = (mixColumn x).xor (mixColumn y) := by
  rw [mixColumn_eq_circulant]
  exact circulant_xor double_xor triple_xor (fun _ _ => rfl) (fun _ _ => rfl) x y

theorem invMixColumn_xor (x y : Word) : invMixColumn (x.xor y) = (invMixColumn x).xor (invMixColumn y) := by
  have hlinear (c a b : Byte) := multiply_xor a b c
  rw [invMixColumn_eq_circulant]
  exact circulant_xor (hlinear _) (hlinear _) (hlinear _) (hlinear _) x y

theorem mixColumn_equalBytes (v : Byte) : mixColumn ⟨v, v, v, v⟩ = ⟨v, v, v, v⟩ := by
  rw [mixColumn_eq_circulant]
  exact circulant_equalBytes (mixCoefficients_sum v)

theorem invMixColumn_equalBytes (v : Byte) : invMixColumn ⟨v, v, v, v⟩ = ⟨v, v, v, v⟩ := by
  rw [invMixColumn_eq_circulant]
  exact circulant_equalBytes (invMixCoefficients_sum v)

/-- Settles O10: both mixings act on each column alone, by a circulant of linear maps whose terms sum to 01. -/
theorem mixingIsLinearAndFixesEqualColumns : Obligations.MixingIsLinearAndFixesEqualColumns := by
  refine ⟨fun s t => ⟨?_, ?_⟩, fun v => ⟨?_, ?_⟩⟩
  · simp only [mixColumns, Block.xor, mixColumn_xor]
  · simp only [invMixColumns, Block.xor, invMixColumn_xor]
  · simp only [mixColumns, Block.ofCells, mixColumn_equalBytes]
  · simp only [invMixColumns, Block.ofCells, invMixColumn_equalBytes]

end Sys2Proof.Machine

/-! The inverse of each round transform (R120 to R122) and of the cipher (R124). A column map that is linear and
commutes with rotation is the identity once it fixes the columns with one byte in row 0, so the two mixings are
compared there alone. -/

namespace Sys2Proof

/-- R110: a State is its sixteen cells. -/
theorem Block.ext_cell {s t : Block} (h : ∀ c r, s.cell c r = t.cell c r) : s = t :=
  Block.ext_byte fun k hk => by
    obtain ⟨c, r, rfl⟩ := exists_column_row hk
    rw [Block.byte_eq_cell, Block.byte_eq_cell, h]

@[simp] theorem Block.cell_map (f : Byte → Byte) (s : Block) (c r : Fin 4) :
    (s.map f).cell c r = f (s.cell c r) := Block.cell_ofCells _ c r

/-- A byte function undone by another is undone on every byte of a block. -/
theorem Block.map_map_cancel {f g : Byte → Byte} (h : ∀ v, g (f v) = v) (s : Block) :
    (s.map f).map g = s :=
  Block.ext_cell fun c r => by rw [Block.cell_map, Block.cell_map, h]

theorem finite_word : Finite Word :=
  Finite.of_injective (fun w : Word => (w.b0, w.b1, w.b2, w.b3)) fun x y h => by
    simp only [Prod.mk.injEq] at h
    obtain ⟨h0, h1, h2, h3⟩ := h
    exact Word.ext h0 h1 h2 h3

/-- A map applied after the loop may be applied before it, if it turns each body into the other loop's. -/
theorem apply_forUp {σ : Type} {a n : Nat} {m : σ → σ} {f g : Nat → σ → σ}
    (h : ∀ k s, m (f k s) = g k (m s)) (s : σ) : m (forUp a n f s) = forUp a n g (m s) := by
  induction n with
  | zero => rfl
  | succ n ih => rw [forUp_succ, forUp_succ, h, ih]

end Sys2Proof

namespace Sys2Proof.Machine

/-- R120: rotating a row left by `r` and then right by `r`. -/
@[simp] theorem invShiftRows_shiftRows (s : Block) : invShiftRows (shiftRows s) = s :=
  Block.ext_cell fun c r => by rw [invShiftRows_cell, shiftRows_cell, sub_add_cancel]

@[simp] theorem shiftRows_invShiftRows (s : Block) : shiftRows (invShiftRows s) = s :=
  Block.ext_cell fun c r => by rw [shiftRows_cell, invShiftRows_cell, add_sub_cancel_right]

@[simp] theorem invSubBytes_subBytes (s : Block) : invSubBytes (subBytes s) = s :=
  Block.map_map_cancel invSbox_sbox s

@[simp] theorem subBytes_invSubBytes (s : Block) : subBytes (invSubBytes s) = s :=
  Block.map_map_cancel sbox_invSbox s

/-- R114, R122: a circulant treats the four rows alike. -/
theorem circulant_rotWord (f₀ f₁ f₂ f₃ : Byte → Byte) (x : Word) :
    circulant f₀ f₁ f₂ f₃ (rotWord x) = rotWord (circulant f₀ f₁ f₂ f₃ x) := by
  ext1 <;> simp only [circulant, rotWord] <;> ac_rfl

/-- Every column is a sum of rotated columns that hold one byte in row 0. -/
theorem word_eq_xor_rotWord (x : Word) :
    x = ((Word.xor ⟨x.b0, 0, 0, 0⟩ (rotWord (rotWord (rotWord ⟨x.b1, 0, 0, 0⟩)))).xor
      (rotWord (rotWord ⟨x.b2, 0, 0, 0⟩))).xor (rotWord ⟨x.b3, 0, 0, 0⟩) := by
  ext1 <;> simp [Word.xor, rotWord]

/-- A linear column map that treats the rows alike is the identity if it is one on row 0. -/
theorem eq_self_of_linear_of_rotWord {m : Word → Word} (hlinear : ∀ x y, m (x.xor y) = (m x).xor (m y))
    (hrot : ∀ x, m (rotWord x) = rotWord (m x)) (hfirst : ∀ v, m ⟨v, 0, 0, 0⟩ = ⟨v, 0, 0, 0⟩) (x : Word) :
    m x = x := by
  rw [word_eq_xor_rotWord x]
  simp only [hlinear, hrot, hfirst]

/-- R81: doubling before the doublings or after them. -/
theorem doubled_double (k : Nat) (v : Byte) : doubled k (double v) = doubled (k + 1) v := by
  induction k with
  | zero => rfl
  | succ k ih => exact congrArg double ih

/-- R81: no bit of the constant 00 is set. -/
theorem multiply_zero (v : Byte) : multiply v 0x00 = 0x00 := by
  simp [multiply_eq, selectedDoubling]

/-- R82: the bits of the shifted constant select one doubling more, as long as none of them leaves the five
that `multiply` looks at. -/
theorem multiply_double (v : Byte) {c : Byte} (hc : c.getLsbD 4 = false) :
    multiply (double v) c = multiply v (c <<< 1) := by
  have hshift (k : Nat) (hk : k < 4) :
      selectedDoubling v (c <<< 1) (k + 1) = selectedDoubling (double v) c k := by
    have hbit : (c <<< 1).getLsbD (k + 1) = c.getLsbD k := by
      rw [BitVec.getLsbD_shiftLeft]
      simp [show k + 1 < 8 by omega]
    rw [selectedDoubling, selectedDoubling, hbit, doubled_double]
  have hlow : selectedDoubling v (c <<< 1) 0 = 0 := by
    simp [selectedDoubling]
  have hhigh : selectedDoubling (double v) c 4 = 0 := by
    rw [selectedDoubling, hc]
    rfl
  rw [multiply_eq, multiply_eq, hlow, hhigh, hshift 0 (by decide), hshift 1 (by decide),
    hshift 2 (by decide), hshift 3 (by decide)]
  simp

/-- R83: `triple` is `double` and the byte itself. -/
theorem multiply_triple (v : Byte) {c : Byte} (hc : c.getLsbD 4 = false) :
    multiply (triple v) c = multiply v (c <<< 1 ^^^ c) := by
  rw [triple, multiply_xor, multiply_double v hc, multiply_xor_const]

/-- R122: on a column with one byte in row 0 the coefficients of each row add up, doubled ones as shifted
constants, to 01 in row 0 and to 00 in the others. -/
theorem invMixColumn_mixColumn_first (v : Byte) :
    invMixColumn (mixColumn ⟨v, 0, 0, 0⟩) = ⟨v, 0, 0, 0⟩ := by
  have hmix : mixColumn ⟨v, 0, 0, 0⟩ = ⟨double v, v, v, triple v⟩ := by
    simp [mixColumn, double, triple]
  rw [hmix, invMixColumn]
  simp (disch := decide) only [multiply_double, multiply_triple, ← multiply_xor_const]
  rw [Word.mk.injEq]
  exact ⟨multiply_one v, multiply_zero v, multiply_zero v, multiply_zero v⟩

/-- R122: `InvMixColumns` undoes `MixColumns` on each column. -/
@[simp] theorem invMixColumn_mixColumn (x : Word) : invMixColumn (mixColumn x) = x :=
  eq_self_of_linear_of_rotWord (m := fun y => invMixColumn (mixColumn y))
    (fun y z => by simp only [mixColumn_xor, invMixColumn_xor])
    (fun y => by simp only [mixColumn_eq_circulant, invMixColumn_eq_circulant, circulant_rotWord])
    invMixColumn_mixColumn_first x

/-- R122: the left inverse on the finitely many columns is the right inverse too. -/
@[simp] theorem mixColumn_invMixColumn (x : Word) : mixColumn (invMixColumn x) = x :=
  have := finite_word
  have hleft : Function.LeftInverse invMixColumn mixColumn := invMixColumn_mixColumn
  hleft.rightInverse_of_surjective (Finite.injective_iff_surjective.1 hleft.injective) x

@[simp] theorem invMixColumns_mixColumns (s : Block) : invMixColumns (mixColumns s) = s := by
  simp only [mixColumns, invMixColumns, invMixColumn_mixColumn]

@[simp] theorem mixColumns_invMixColumns (s : Block) : mixColumns (invMixColumns s) = s := by
  simp only [mixColumns, invMixColumns, mixColumn_invMixColumn]

/-- Settles O9: index arithmetic modulo 4, the two tables, and the two circulants. -/
theorem roundTransformsAreUndone : Obligations.RoundTransformsAreUndone := fun s =>
  ⟨invShiftRows_shiftRows s, shiftRows_invShiftRows s, invSubBytes_subBytes s, subBytes_invSubBytes s,
    invMixColumns_mixColumns s, mixColumns_invMixColumns s⟩

/-- R111: adding a round key twice. -/
@[simp] theorem addRoundKey_addRoundKey (s : Block) (rk : List Byte) (round : Nat) :
    addRoundKey (addRoundKey s rk round) rk round = s := Block.xor_xor_cancel s _

/-- R115, R124: one turn of Cipher's loop cut before MixColumns instead of before SubBytes. -/
def mixFirstRound (rk : List Byte) (round : Nat) (s : Block) : Block :=
  shiftRows (subBytes (addRoundKey (mixColumns s) rk round))

/-- R115: Cipher with its loop cut that way, which is the order of InvCipher's loop read backwards (R123). -/
theorem cipher_eq_mixFirstRound (nr : Nat) (rk : List Byte) (b : Block) :
    cipher nr rk b = addRoundKey (forUp 1 (nr - 1) (mixFirstRound rk)
      (shiftRows (subBytes (addRoundKey b rk 0)))) rk nr :=
  congrArg (addRoundKey · rk nr) <|
    apply_forUp (m := fun s => shiftRows (subBytes s)) (g := mixFirstRound rk) (fun _ _ => rfl) _

@[simp] theorem invCipherRound_mixFirstRound (rk : List Byte) (round : Nat) (s : Block) :
    invCipherRound rk round (mixFirstRound rk round s) = s := by
  simp only [invCipherRound, mixFirstRound, invShiftRows_shiftRows, invSubBytes_subBytes,
    addRoundKey_addRoundKey, invMixColumns_mixColumns]

@[simp] theorem mixFirstRound_invCipherRound (rk : List Byte) (round : Nat) (s : Block) :
    mixFirstRound rk round (invCipherRound rk round s) = s := by
  simp only [invCipherRound, mixFirstRound, mixColumns_invMixColumns, addRoundKey_addRoundKey,
    subBytes_invSubBytes, shiftRows_invShiftRows]

/-- R124: `InvCipher` takes the steps of `Cipher` back, the last one first; any number of rounds, any schedule. -/
@[simp] theorem invCipher_cipher (nr : Nat) (rk : List Byte) (b : Block) :
    invCipher nr rk (cipher nr rk b) = b := by
  rw [cipher_eq_mixFirstRound, invCipher, addRoundKey_addRoundKey,
    forDown_forUp (invCipherRound_mixFirstRound rk), invShiftRows_shiftRows, invSubBytes_subBytes,
    addRoundKey_addRoundKey]

@[simp] theorem cipher_invCipher (nr : Nat) (rk : List Byte) (b : Block) :
    cipher nr rk (invCipher nr rk b) = b := by
  rw [cipher_eq_mixFirstRound, invCipher, addRoundKey_addRoundKey, subBytes_invSubBytes,
    shiftRows_invShiftRows, forUp_forDown (mixFirstRound_invCipherRound rk), addRoundKey_addRoundKey]

/-- Settles O11: every step is undone whatever the round keys, so the length of `rk` plays no part. -/
theorem invCipherInvertsCipher : Obligations.InvCipherInvertsCipher := fun kl rk b _ =>
  ⟨invCipher_cipher kl.nr rk b, cipher_invCipher kl.nr rk b⟩

end Sys2Proof.Machine

/-! The context commands (R130 to R133) and the phase table (R134): the checks that read the build and PHASE are the
spec's own tables, and a command that passes them all has its effect. -/

namespace Sys2Proof.Machine

/-- R66, R170 step 2: the first check asks whether the command exists in the build. -/
theorem checksOf_inBuild {i : Instr} {s : State} :
    (checksOf i s).inBuild = true ↔ existsIn s.build i := by
  cases i with
  | init key => exact decide_eq_true_iff
  | initIv key iv => exact Bool.and_eq_true_iff.trans (and_congr decide_eq_true_iff Bool.or_eq_true_iff)
  | setIv iv => exact Bool.or_eq_true_iff
  | destroy => exact iff_of_true rfl trivial
  | ecbEnc | ecbDec | cbcEnc | cbcDec | ctrXcrypt => exact Iff.rfl

/-- R134, R170 step 3: the second check asks whether the cell of the phase table has an arrow. -/
theorem checksOf_phaseOk (i : Instr) (s : State) :
    (checksOf i s).phaseOk = (phaseTable i s.phase).isSome := by
  cases i with
  | init | initIv | destroy => rfl
  | setIv | ecbEnc | ecbDec =>
    change s.phase.hasKey = _
    cases s.phase <;> rfl
  | cbcEnc | cbcDec | ctrXcrypt =>
    change s.phase.hasChain = _
    cases s.phase <;> rfl

/-- A command that passes its checks answers what it does on its own. -/
theorem exec_of_passes {i : Instr} {s t : State} (hc : firstFailure (checksOf i s) = none)
    (hrun : runOf i s = .next t) : exec i s = .next t := exec_eq_next.2 (.inr ⟨hc, hrun⟩)

/-- R134, R174: a command is rejected with PHASE exactly when it exists in the build and its cell of the phase table
has no arrow. -/
theorem exec_err_eq_phase {i : Instr} {s t : State} (h : exec i s = .next t) :
    t.err = .phase ↔ existsIn s.build i ∧ phaseTable i s.phase = none := by
  have hcell : firstFailure (checksOf i s) = some .phase ↔
      existsIn s.build i ∧ phaseTable i s.phase = none := by
    rw [firstFailure_eq_phase, checksOf_inBuild, checksOf_phaseOk, Option.isSome_eq_false_iff,
      Option.isNone_iff_eq_none]
  rw [← hcell]
  obtain ⟨code, hcode, rfl⟩ | ⟨hpass, hrun⟩ := exec_eq_next.1 h
  · rw [hcode, takeReject_err, Option.some.injEq]
  · obtain ⟨herr, -, -, -⟩ := runOf_eq_next hrun
    simp [herr, hpass]

/-- Settles O24: a reject keeps PHASE, an accepted command leaves its cell's, and a cell without an arrow is what
the code PHASE reports. -/
theorem phaseFollowsThePhaseTable : Obligations.PhaseFollowsThePhaseTable := by
  intro i s t h
  have hphase := exec_err_eq_phase h
  refine ⟨fun hok => ?_, fun hrej => ?_, fun hex hcell => hphase.2 ⟨hex, hcell⟩,
    fun harrow herr => harrow (hphase.1 herr).2⟩
  · obtain ⟨code, hcode, rfl⟩ | ⟨hpass, hrun⟩ := exec_eq_next.1 h
    · exact absurd hok (firstFailure_ne_ok hcode)
    · exact runOf_phase hpass hrun
  · obtain ⟨code, -, rfl⟩ | ⟨-, hrun⟩ := exec_eq_next.1 h
    · exact takeReject_phase s code
    · obtain ⟨herr, -, -, -⟩ := runOf_eq_next hrun
      exact absurd herr hrej

/-- Settles O26: a key of KEYBYTES bytes is all INIT asks for. -/
theorem initExpandsTheKey : Obligations.InitExpandsTheKey := fun _ _ hkey =>
  exec_of_passes (firstFailure_eq_none.2 ⟨checksOf_inBuild.2 hkey, rfl, rfl, rfl⟩) (runOf_init.2 rfl)

/-- Settles O27: INIT_IV asks for a chaining mode as well. -/
theorem initIvExpandsTheKeyAndSetsTheChain : Obligations.InitIvExpandsTheKeyAndSetsTheChain :=
  fun _ _ _ hkey hchain =>
    exec_of_passes (firstFailure_eq_none.2 ⟨checksOf_inBuild.2 ⟨hkey, hchain⟩, rfl, rfl, rfl⟩)
      (runOf_initIv.2 rfl)

/-- Settles O29: SET_IV asks for a chaining mode and a loaded key. -/
theorem setIvReplacesTheChain : Obligations.SetIvReplacesTheChain := fun _ _ hchain hkey =>
  exec_of_passes (firstFailure_eq_none.2 ⟨checksOf_inBuild.2 hchain, bne_iff_ne.2 hkey, rfl, rfl⟩)
    (runOf_setIv.2 rfl)

/-- Settles O30: DESTROY asks for nothing, and reset disposes of the context in the same way. -/
theorem destroyDisposesOfTheContext : Obligations.DestroyDisposesOfTheContext := fun s =>
  have hexec : exec .destroy s = .next (s.dispose.setErr .ok) :=
    exec_of_passes (firstFailure_eq_none.2 ⟨rfl, rfl, rfl, rfl⟩) (runOf_destroy.2 rfl)
  ⟨hexec, hexec⟩

/-- Settles O28: INIT leaves KEYEXP (O26), where SET_IV completes (O29), and the two together leave what INIT_IV
does (O27). -/
theorem initIvIsInitThenSetIv : Obligations.InitIvIsInitThenSetIv := by
  intro s t key iv hkey hchain
  have hinit := initExpandsTheKey s key hkey
  have hboth := initIvExpandsTheKeyAndSetsTheChain s key iv hkey hchain
  have hset := setIvReplacesTheChain
    { s with rk := some (expand s.build.keyLen key), cv := none, phase := .keyexp, err := .ok } iv hchain
    (fun h => nomatch h)
  simp only [hinit, hboth, Host.Outcome.next.injEq, exists_eq_left', hset]

/-! What the context commands leave as it was. -/

/-- No command changes the host's queue, accepted or rejected. -/
theorem exec_keeps_pending {i : Instr} {s t : State} (h : exec i s = .next t) : t.pending = s.pending := by
  obtain ⟨code, -, rfl⟩ | ⟨-, hrun⟩ := exec_eq_next.1 h
  · exact takeReject_pending s code
  · obtain ⟨-, -, -, hpending⟩ := runOf_eq_next hrun
    exact hpending

/-- A command whose own effect keeps BUF keeps it when rejected too. -/
theorem exec_keeps_buf {i : Instr} {s t : State} (hrun : ∀ u, runOf i s = .next u → u.buf = s.buf)
    (h : exec i s = .next t) : t.buf = s.buf := by
  obtain ⟨code, -, rfl⟩ | ⟨-, ht⟩ := exec_eq_next.1 h
  · exact takeReject_buf s code
  · exact hrun t ht

/-- R132: SET_IV leaves RK, accepted or rejected. -/
theorem exec_setIv_rk {iv : Block} {s t : State} (h : exec (.setIv iv) s = .next t) : t.rk = s.rk := by
  obtain ⟨code, -, rfl⟩ | ⟨-, hrun⟩ := exec_eq_next.1 h
  · exact takeReject_rk s code
  · obtain rfl := runOf_setIv.1 hrun
    simp

/-- Settles O45: the four keep BUF, and every command keeps the build, the queue and, if accepted, STICKY. -/
theorem contextCommandsFrame : Obligations.ContextCommandsFrame := by
  intro s t key iv h
  obtain ⟨i, hexec, hbuf⟩ : ∃ i, exec i s = .next t ∧ t.buf = s.buf := by
    obtain h | h | h | h := h
    · exact ⟨_, h, exec_keeps_buf (fun _ hu => by simp [runOf_init.1 hu]) h⟩
    · exact ⟨_, h, exec_keeps_buf (fun _ hu => by simp [runOf_initIv.1 hu]) h⟩
    · exact ⟨_, h, exec_keeps_buf (fun _ hu => by simp [runOf_setIv.1 hu]) h⟩
    · exact ⟨_, h, exec_keeps_buf (fun _ hu => by simp [runOf_destroy.1 hu]) h⟩
  exact ⟨fun a => by rw [hbuf], exec_keeps_build hexec, exec_keeps_pending hexec,
    fun hok => by simpa [hok] using exec_sticky hexec, exec_setIv_rk⟩

end Sys2Proof.Machine

/-! The ECB commands (R140, R141): the block they transform in place, what each leaves when it is accepted, and
that the two undo each other. -/

namespace Sys2Proof.Machine

/-- R41, R42: canonical memories with the same block at `p` that read alike around it are the same list. -/
theorem Memory.ext_of_readBlock {m m' : Memory} (hm : m.wf = true) (hm' : m'.wf = true) {p : Nat}
    (hblock : m.readBlock p = m'.readBlock p)
    (hout : ∀ a, a < p ∨ p + 16 ≤ a → m.read a = m'.read a) : m = m' := by
  refine Memory.ext hm hm' fun a => ?_
  by_cases ha : a < p ∨ p + 16 ≤ a
  · exact hout a ha
  · obtain ⟨k, rfl⟩ := Nat.exists_eq_add_of_le (show p ≤ a by omega)
    have hk : k < 16 := by omega
    rw [← Memory.byte_readBlock m p hk, ← Memory.byte_readBlock m' p hk, hblock]

/-- R141: transforming a block in place and taking that back leaves BUF as it was. -/
theorem ecbBlock_ecbBlock_cancel {m : Memory} (h : m.wf = true) {f g : Block → Block}
    (hgf : ∀ b, g (f b) = b) (p : Nat) : ecbBlock g p (ecbBlock f p m) = m := by
  have hwf : (ecbBlock f p m).wf = true := ecbBlock_wf h f p
  refine Memory.ext_of_readBlock (p := p) (ecbBlock_wf hwf g p) h ?_ fun a ha => ?_
  · rw [ecbBlock_readBlock hwf, ecbBlock_readBlock h, hgf]
  · rw [ecbBlock_read_out hwf g p ha, ecbBlock_read_out h f p ha]

/-- The two updates of an accepted ECB command (R140, R141) as the obligations write them. -/
theorem State.setBuf_setErr (s : State) (m : Memory) (e : ErrCode) :
    (s.setBuf m).setErr e = { s with buf := m, err := e } := rfl

/-- R140, R170: ECB in the build, a loaded key and a block inside BUF are all an ECB command asks for. -/
theorem ecbChecks_pass {s : State} {ptr : BitVec 32} (hecb : s.build.enEcb = true)
    (hphase : s.phase ≠ .uninit) (hfits : ptr.toNat + 16 ≤ s.build.bufSize) :
    firstFailure (ecbChecks ptr s) = none :=
  firstFailure_eq_none.2 ⟨hecb, bne_iff_ne.2 hphase, rfl, Range.fits_iff.2 hfits⟩

theorem exec_ecbEnc_accepted {s : State} {ptr : BitVec 32} {rk : List Byte} (hecb : s.build.enEcb = true)
    (hphase : s.phase ≠ .uninit) (hrk : s.rk = some rk) (hfits : ptr.toNat + 16 ≤ s.build.bufSize) :
    exec (.ecbEnc ptr) s =
      .next { s with buf := ecbBlock (cipher s.build.keyLen.nr rk) ptr.toNat s.buf, err := .ok } := by
  rw [← State.setBuf_setErr]
  exact exec_of_passes (ecbChecks_pass hecb hphase hfits) (runOf_ecbEnc.2 ⟨rk, hrk, rfl⟩)

theorem exec_ecbDec_accepted {s : State} {ptr : BitVec 32} {rk : List Byte} (hecb : s.build.enEcb = true)
    (hphase : s.phase ≠ .uninit) (hrk : s.rk = some rk) (hfits : ptr.toNat + 16 ≤ s.build.bufSize) :
    exec (.ecbDec ptr) s =
      .next { s with buf := ecbBlock (invCipher s.build.keyLen.nr rk) ptr.toNat s.buf, err := .ok } := by
  rw [← State.setBuf_setErr]
  exact exec_of_passes (ecbChecks_pass hecb hphase hfits) (runOf_ecbDec.2 ⟨rk, hrk, rfl⟩)

/-- Settles O31: BUF becomes the old one with the block at `ptr` put through Cipher. -/
theorem ecbEncEnciphersOneBlock : Obligations.EcbEncEnciphersOneBlock :=
  fun _ ptr _ hecb hphase hrk hwf hfits =>
    ⟨_, exec_ecbEnc_accepted hecb hphase hrk hfits, ecbBlock_readBlock hwf _ _,
      ecbBlock_sameOutside hwf _ ptr⟩

/-- Settles O32: BUF becomes the old one with the block at `ptr` put through InvCipher. -/
theorem ecbDecDeciphersOneBlock : Obligations.EcbDecDeciphersOneBlock :=
  fun _ ptr _ hecb hphase hrk hwf hfits =>
    ⟨_, exec_ecbDec_accepted hecb hphase hrk hfits, ecbBlock_readBlock hwf _ _,
      ecbBlock_sameOutside hwf _ ptr⟩

/-- Settles O33: BUF and ERR play no part in the checks, so the second command completes too, and InvCipher
and Cipher under the same RK are inverse to each other (O11). -/
theorem ecbRoundTripRestoresTheState : Obligations.EcbRoundTripRestoresTheState := by
  intro s ptr hi hecb hphase hfits
  obtain ⟨rk, hrk⟩ := Option.isSome_iff_exists.1 (hi.rk_written.trans (bne_iff_ne.2 hphase))
  have henc (m : Memory) (e : ErrCode) : exec (.ecbEnc ptr) { s with buf := m, err := e } =
      .next { s with buf := ecbBlock (cipher s.build.keyLen.nr rk) ptr.toNat m, err := .ok } :=
    exec_ecbEnc_accepted hecb hphase hrk hfits
  have hdec (m : Memory) (e : ErrCode) : exec (.ecbDec ptr) { s with buf := m, err := e } =
      .next { s with buf := ecbBlock (invCipher s.build.keyLen.nr rk) ptr.toNat m, err := .ok } :=
    exec_ecbDec_accepted hecb hphase hrk hfits
  refine ⟨⟨_, henc s.buf s.err, ?_⟩, ⟨_, hdec s.buf s.err, ?_⟩⟩
  · rw [hdec, ecbBlock_ecbBlock_cancel hi.buf_wf (invCipher_cipher _ rk)]
  · rw [henc, ecbBlock_ecbBlock_cancel hi.buf_wf (cipher_invCipher _ rk)]

/-- R45, R140, R141: an accepted ECB command of either direction changes BUF inside its block, and ERR. -/
theorem runOf_ecb {i : Instr} {s t : State} {ptr : BitVec 32} (hwf : s.buf.wf = true)
    (hi : i = .ecbEnc ptr ∨ i = .ecbDec ptr) (h : runOf i s = .next t) :
    ∃ m, sameOutside (blockRange ptr) s.buf m ∧ t = { s with buf := m, err := .ok } := by
  obtain rfl | rfl := hi
  · obtain ⟨rk, -, rfl⟩ := runOf_ecbEnc.1 h
    exact ⟨_, ecbBlock_sameOutside hwf _ ptr, State.setBuf_setErr s _ _⟩
  · obtain ⟨rk, -, rfl⟩ := runOf_ecbDec.1 h
    exact ⟨_, ecbBlock_sameOutside hwf _ ptr, State.setBuf_setErr s _ _⟩

/-- Settles O46: a reject changes ERR and STICKY alone, an accepted command its block and ERR. -/
theorem ecbCommandsFrame : Obligations.EcbCommandsFrame := by
  intro s t ptr hwf h
  obtain ⟨i, hi, hexec⟩ : ∃ i, (i = .ecbEnc ptr ∨ i = .ecbDec ptr) ∧ exec i s = .next t :=
    h.elim (⟨_, .inl rfl, ·⟩) (⟨_, .inr rfl, ·⟩)
  obtain ⟨code, hcode, rfl⟩ | ⟨-, hrun⟩ := exec_eq_next.1 hexec
  · exact ⟨fun _ _ => rfl, rfl, rfl, rfl, rfl, rfl, fun hok => absurd hok (firstFailure_ne_ok hcode)⟩
  · obtain ⟨m, hm, rfl⟩ := runOf_ecb hwf hi hrun
    exact ⟨hm, rfl, rfl, rfl, rfl, rfl, fun _ => rfl⟩

end Sys2Proof.Machine

/-! The reject codes (R172 to R176): each is the first check that fails, and each check is one of the spec's own
tables. -/

namespace Sys2Proof.Machine

/-- R170: in an engine in order no descriptor stops it, whatever its bytes. -/
theorem issue_completes {s : State} (hi : EngineInv s) (d : List Byte) : ∃ t, issue d s = .next t := by
  cases hdec : decode s.build.keyLen d with
  | error e => exact ⟨_, issue_eq_next.2 (.inl ⟨e, hdec, rfl⟩)⟩
  | ok i =>
    obtain ⟨t, ht⟩ := exec_completes (i := i) hi
    exact ⟨t, issue_eq_next.2 (.inr ⟨i, hdec, ht⟩)⟩

/-- Settles O18: the queue is no part of the invariant, and issuing completes under it. -/
theorem everyDescriptorCompletes : Obligations.EveryDescriptorCompletes := by
  intro s d rest hi hpend
  rw [step_command hpend]
  exact issue_completes (hi.withPending rest) d

/-- R172: a command that reports a code other than OK was rejected with that code. -/
theorem exec_rejected {i : Instr} {s t : State} (h : exec i s = .next t) (herr : t.err ≠ .ok) :
    t = takeReject t.err s := by
  obtain ⟨code, -, rfl⟩ | ⟨-, hrun⟩ := exec_eq_next.1 h
  · rfl
  · obtain ⟨hok, -, -, -⟩ := runOf_eq_next hrun
    exact absurd hok herr

/-- Settles O19: an illegal descriptor and a command that fails a check are both taken as a reject. -/
theorem rejectChangesOnlyErrAndSticky : Obligations.RejectChangesOnlyErrAndSticky := by
  intro s t d rest hpend h herr
  rw [step_command hpend] at h
  obtain ⟨e, -, rfl⟩ | ⟨i, -, hexec⟩ := issue_eq_next.1 h
  · rfl
  · exact exec_rejected hexec herr

/-- R170, R178: the code a command reports is that of its first failing check. -/
theorem exec_err_eq_iff {i : Instr} {s t : State} {code : ErrCode} (h : exec i s = .next t)
    (hcode : code ≠ .ok) : t.err = code ↔ firstFailure (checksOf i s) = some code := by
  obtain ⟨c, hc, rfl⟩ | ⟨hpass, hrun⟩ := exec_eq_next.1 h
  · rw [hc, takeReject_err, Option.some.injEq]
  · obtain ⟨hok, -, -, -⟩ := runOf_eq_next hrun
    simp [hok, hpass, hcode.symm]

/-- R66, R173: a legal descriptor is rejected with ILLEGAL_CMD exactly when its command is not in the build. -/
theorem exec_err_eq_illegalCmd {i : Instr} {s t : State} (h : exec i s = .next t) :
    t.err = .illegalCmd ↔ ¬ existsIn s.build i := by
  rw [exec_err_eq_iff (code := .illegalCmd) h (by decide), firstFailure_eq_illegalCmd, ← checksOf_inBuild,
    Bool.not_eq_true]

theorem commandRows_map_op (b : Build) :
    (commandRows b).map CommandRow.op = [0x01, 0x02, 0x03, 0x04, 0x10, 0x11, 0x20, 0x21, 0x30] := by
  rw [commandRows_eq]
  rfl

/-- R63: no opcode has two rows. -/
theorem row_eq_of_op_eq {b : Build} {row row' : CommandRow} (h : row ∈ commandRows b)
    (h' : row' ∈ commandRows b) (hop : row.op = row'.op) : row = row' :=
  List.inj_on_of_nodup_map (f := CommandRow.op) (by rw [commandRows_map_op]; decide) h h' hop

/-- R63, R66: the column "exists when" of a well-formed command's row says whether the build has the command. -/
theorem exists_row_existsIn {b : Build} {i : Instr} (hwf : i.wf b.keyLen = true) :
    ∃ row ∈ commandRows b, row.op = i.opcode ∧ row.bytes = i.format.bytes b.keyLen ∧
      (row.existsWhen = true ↔ existsIn b i) := by
  cases i with
  | init key =>
    have hkey : key.length = b.keyLen.keyBytes := beq_iff_eq.1 hwf
    simp [commandRows_eq, Instr.opcode, Instr.format, existsIn, hkey]
  | initIv key iv =>
    have hkey : key.length = b.keyLen.keyBytes := beq_iff_eq.1 hwf
    simp [commandRows_eq, Instr.opcode, Instr.format, existsIn, hkey, Build.enChain]
  | setIv => simp [commandRows_eq, Instr.opcode, Instr.format, existsIn, Build.enChain]
  | destroy | ecbEnc | ecbDec | cbcEnc | cbcDec | ctrXcrypt =>
    simp [commandRows_eq, Instr.opcode, Instr.format, existsIn]

/-- R64, R66: to spell a command of the build is to decode to a command that the build has. -/
theorem spellsCommand_iff {b : Build} {d : List Byte} :
    spellsCommand b d ↔ ∃ i, decode b.keyLen d = .ok i ∧ existsIn b i := by
  constructor
  · rintro ⟨row, hrow, hhead, hlen, hexists⟩
    obtain ⟨i, hdec⟩ := (decodableIsOpcodeAndLength b d).2 ⟨row, hrow, hhead, hlen⟩
    obtain ⟨-, hwf⟩ := decode_eq_ok_iff_encode.1 hdec
    obtain ⟨row', hrow', hop, -, hiff⟩ := exists_row_existsIn hwf
    have hsame : row.op = row'.op := Option.some.inj (hhead.symm.trans (hop ▸ decode_head hdec))
    obtain rfl := row_eq_of_op_eq hrow hrow' hsame
    exact ⟨i, hdec, hiff.1 hexists⟩
  · rintro ⟨i, hdec, hexists⟩
    obtain ⟨rfl, hwf⟩ := decode_eq_ok_iff_encode.1 hdec
    obtain ⟨row, hrow, hop, hbytes, hiff⟩ := exists_row_existsIn hwf
    exact ⟨row, hrow, congrArg some hop.symm, (wf_iff_encode_length.1 hwf).trans hbytes.symm,
      hiff.2 hexists⟩

/-- Settles O20: an illegal descriptor decodes to nothing, and a legal one to the command whose row is looked up. -/
theorem illegalCmdIffNoCommandOfTheBuild : Obligations.IllegalCmdIffNoCommandOfTheBuild := by
  intro s t d rest hpend h
  rw [step_command hpend] at h
  rw [spellsCommand_iff]
  obtain ⟨e, hdec, rfl⟩ | ⟨i, hdec, hexec⟩ := issue_eq_next.1 h
  · have hdec : decode s.build.keyLen d = .error e := hdec
    simp [hdec]
  · have hdec : decode s.build.keyLen d = .ok i := hdec
    simpa [hdec] using exec_err_eq_illegalCmd hexec

/-- Settles O21: the cells without an arrow of the phase table, command by command. -/
theorem phaseRejectIffContextLacksWhatIsNeeded : Obligations.PhaseRejectIffContextLacksWhatIsNeeded := by
  intro i s t h
  refine (exec_err_eq_phase h).trans (and_congr_right fun _ => ?_)
  cases i with
  | init | initIv | destroy => simp [phaseTable]
  | setIv | ecbEnc | ecbDec | cbcEnc | cbcDec | ctrXcrypt => cases s.phase <;> simp [phaseTable]

/-- R46, R175: the third check asks CBC alone for whole blocks. -/
theorem checksOf_lengthOk_eq_false {i : Instr} {s : State} :
    (checksOf i s).lengthOk = false ↔ raggedCbc i := by
  cases i with
  | init | initIv | setIv | destroy | ecbEnc | ecbDec | ctrXcrypt =>
    exact iff_of_false Bool.noConfusion id
  | cbcEnc | cbcDec => exact decide_eq_false_iff_not

/-- R45, R176: the fourth check asks a mode command for a range in BUF. -/
theorem checksOf_boundsOk_eq_false {i : Instr} {s : State} :
    (checksOf i s).boundsOk = false ↔ outsideBuf s.build i := by
  cases i with
  | init | initIv | setIv | destroy => exact iff_of_false Bool.noConfusion id
  | ecbEnc | ecbDec | cbcEnc | cbcDec | ctrXcrypt => exact Range.fits_eq_false

/-- Settles O22: the first failing check is the third. -/
theorem lengthRejectIffRaggedCbc : Obligations.LengthRejectIffRaggedCbc := by
  intro i s t h
  rw [exec_err_eq_iff (code := .length) h (by decide), firstFailure_eq_length, checksOf_inBuild, checksOf_phaseOk,
    checksOf_lengthOk_eq_false]

/-- Settles O23: the first failing check is the fourth. -/
theorem boundsRejectIffRangeOutsideBuf : Obligations.BoundsRejectIffRangeOutsideBuf := by
  intro i s t h
  rw [exec_err_eq_iff (code := .bounds) h (by decide), firstFailure_eq_bounds, checksOf_inBuild, checksOf_phaseOk,
    checksOf_boundsOk_eq_false, ← checksOf_lengthOk_eq_false (s := s), Bool.not_eq_false]

/-- R190: after reset STATUS reads 0. -/
theorem status_applyReset (s : State) : (applyReset s).status = 0x00000000 := by
  simp only [State.status, applyReset_err, applyReset_sticky, applyReset_phase]
  rfl

/-- Settles O59: reset is taken from the queue, disposes of the context and clears ERR and STICKY. -/
theorem resetLeavesTheResetState : Obligations.ResetLeavesTheResetState := by
  intro s rest hpend
  rw [step_pending hpend]
  exact ⟨_, rfl, rfl, rfl, rfl, rfl, rfl, status_applyReset _, State.config_congr rfl, rfl, rfl, rfl⟩

end Sys2Proof.Machine

/-! The counter (R161): a big-endian number of sixteen digits in base 256, which the carry chain increments from the
last digit on. -/

namespace Sys2Proof.Machine

/-- The number a byte sequence spells least significant byte first, the order of the carry chain. -/
def valueFromFirst (l : List Byte) : Nat := Nat.ofDigits 256 (l.map BitVec.toNat)

theorem valueFromFirst_cons (b : Byte) (l : List Byte) :
    valueFromFirst (b :: l) = b.toNat + 256 * valueFromFirst l := rfl

theorem counterValue_eq (cv : Block) : counterValue cv = valueFromFirst cv.toList.reverse := by
  rw [counterValue, List.foldl_eq_foldr_reverse, valueFromFirst, Nat.ofDigits_eq_foldr, List.foldr_map]
  simp only [Nat.cast_id, Nat.add_comm, Nat.mul_comm]

theorem digit_lt (l : List Byte) : ∀ x ∈ l.map BitVec.toNat, x < 256 := by
  simp only [List.mem_map]
  rintro _ ⟨b, -, rfl⟩
  exact b.isLt

theorem valueFromFirst_lt (l : List Byte) : valueFromFirst l < 256 ^ l.length := by
  simpa [valueFromFirst] using Nat.ofDigits_lt_base_pow_length (by decide) (digit_lt l)

theorem valueFromFirst_injective {l l' : List Byte} (hlen : l.length = l'.length)
    (h : valueFromFirst l = valueFromFirst l') : l = l' :=
  List.map_injective_iff.2 (fun _ _ => BitVec.eq_of_toNat_eq) <|
    Nat.ofDigits_inj_of_len_eq (by decide) (by simpa using hlen) (digit_lt l) (digit_lt l') h

/-- Settles O41: sixteen digits in base 256 are determined by their number. -/
theorem counterValueIsInjective : Obligations.CounterValueIsInjective := fun c c' h =>
  Block.toList_injective <| List.reverse_injective <|
    valueFromFirst_injective (by simp) (by rwa [← counterValue_eq, ← counterValue_eq])

theorem counterValue_lt (cv : Block) : counterValue cv < 2 ^ 128 := by
  have h := valueFromFirst_lt cv.toList.reverse
  rwa [← counterValue_eq, List.length_reverse, Block.toList_length] at h

@[simp] theorem incrementFromLast_length (l : List Byte) : (incrementFromLast l).length = l.length := by
  induction l with
  | nil => rfl
  | cons b l ih =>
    rw [incrementFromLast]
    split <;> simp [ih]

/-- R161: the carry chain adds 1 and drops the carry out of the last place it reaches. -/
theorem valueFromFirst_incrementFromLast (l : List Byte) :
    valueFromFirst (incrementFromLast l) = (valueFromFirst l + 1) % 256 ^ l.length := by
  induction l with
  | nil => rfl
  | cons b l ih =>
    have hl := valueFromFirst_lt l
    rw [incrementFromLast, List.length_cons, Nat.pow_succ', valueFromFirst_cons]
    by_cases hb : b = 0xFF
    · have hcarry : b.toNat + 256 * valueFromFirst l + 1 = 256 * (valueFromFirst l + 1) := by
        rw [hb, show (0xFF : Byte).toNat = 255 from rfl]
        omega
      rw [if_pos hb, valueFromFirst_cons, ih, hcarry, Nat.mul_mod_mul_left]
      simp
    · have hsucc : (b + 1).toNat = b.toNat + 1 := by bv_omega
      have hlt := b.isLt
      rw [if_neg hb, valueFromFirst_cons, hsucc, Nat.mod_eq_of_lt] <;> bv_omega

theorem ctrInc_toList (cv : Block) :
    (ctrInc cv).toList = (incrementFromLast cv.toList.reverse).reverse := by
  rw [ctrInc, blockAt_toList (by simp)]
  exact List.take_of_length_le (by simp)

/-- Settles O39: the bytes of the counter, last first, are the digits the carry chain runs over. -/
theorem ctrIncAddsOneModTwoPow128 : Obligations.CtrIncAddsOneModTwoPow128 := by
  intro cv
  rw [counterValue_eq, ctrInc_toList, List.reverse_reverse, valueFromFirst_incrementFromLast,
    ← counterValue_eq, List.length_reverse, Block.toList_length, show 256 ^ 16 = 2 ^ 128 by rfl]

/-- R161: `n` increments add `n`, modulo 2^128. -/
theorem counterValue_iterate_ctrInc (cv : Block) (n : Nat) :
    counterValue (ctrInc^[n] cv) = (counterValue cv + n) % 2 ^ 128 := by
  induction n with
  | zero => rw [Function.iterate_zero_apply, Nat.add_zero, Nat.mod_eq_of_lt (counterValue_lt cv)]
  | succ n ih => rw [Function.iterate_succ_apply', ctrIncAddsOneModTwoPow128, ih, Nat.mod_add_mod, Nat.add_assoc]

end Sys2Proof.Machine

/-! What the three stream commands share: a chaining value with its key in an engine in order, the frame, and
loops that go on where another one stopped. -/

namespace Sys2Proof

/-- A loop that goes on at index `m` is one from 0 with the bodies renumbered. -/
theorem forUp_shift {σ : Type} {m n : Nat} {f g : Nat → σ → σ} (h : ∀ k t, f (m + k) t = g k t) (s : σ) :
    forUp m n f s = forUp 0 n g s := by
  induction n with
  | zero => rfl
  | succ n ih => rw [forUp_succ, forUp_succ, ih, h, Nat.zero_add]

/-- R152, R164: a loop cut at index `m` into two loops that both count from 0. -/
theorem forUp_split {σ : Type} {m n : Nat} {f g : Nat → σ → σ} (h : ∀ k t, f (m + k) t = g k t) (s : σ) :
    forUp 0 (m + n) f s = forUp 0 n g (forUp 0 m f s) := by
  rw [forUp_append, Nat.zero_add, forUp_shift h]

theorem Block.xor_assoc (x y z : Block) : (x.xor y).xor z = x.xor (y.xor z) := by
  simp only [Block.xor, Word.xor, BitVec.xor_assoc]

theorem Block.xor_comm (x y : Block) : x.xor y = y.xor x := by
  simp only [Block.xor, Word.xor, BitVec.xor_comm]

end Sys2Proof

namespace Sys2Proof.Machine

theorem Phase.hasChain_iff {p : Phase} : p.hasChain = true ↔ p = .chset ∨ p = .stream := by
  cases p <;> decide

/-- R22: CV is written in the phases with a chaining value only. -/
theorem EngineInv.hasChain_of_cv {s : State} (hi : EngineInv s) {cv : Block} (h : s.cv = some cv) :
    s.phase.hasChain = true := by
  rw [← hi.cv_written, h, Option.isSome_some]

/-- R22: CV is written in every phase with a chaining value. -/
theorem EngineInv.exists_cv {s : State} (hi : EngineInv s) (h : s.phase.hasChain = true) :
    ∃ cv, s.cv = some cv := Option.isSome_iff_exists.1 (hi.cv_written.trans h)

/-- R22: where a chaining value is written, so is RK. -/
theorem EngineInv.exists_rk {s : State} (hi : EngineInv s) (h : s.phase.hasChain = true) :
    ∃ rk, s.rk = some rk :=
  Option.isSome_iff_exists.1 (hi.rk_written.trans (Phase.hasKey_of_hasChain h))

/-- R20: no command but INIT, INIT_IV and DESTROY changes RK, accepted or rejected. -/
theorem exec_keeps_rk {i : Instr} {s t : State}
    (hi : ¬ (i.opcode = 0x01 ∨ i.opcode = 0x02 ∨ i.opcode = 0x04)) (h : exec i s = .next t) :
    t.rk = s.rk := by
  obtain ⟨code, -, rfl⟩ | ⟨-, hrun⟩ := exec_eq_next.1 h
  · exact takeReject_rk s code
  · exact (runOf_rk hrun).resolve_right hi

/-- Settles O47: the frame of every command (O48, O52), for three whose range is the span and which do not write
RK. -/
theorem streamCommandsFrame : Obligations.StreamCommandsFrame := by
  intro s t ptr len hwf h
  obtain ⟨i, hexec, hrange, hop⟩ : ∃ i, exec i s = .next t ∧ touchedRange i = spanRange ptr len ∧
      ¬ (i.opcode = 0x01 ∨ i.opcode = 0x02 ∨ i.opcode = 0x04) := by
    obtain h | h | h := h
    · exact ⟨_, h, rfl, by simp [Instr.opcode]⟩
    · exact ⟨_, h, rfl, by simp [Instr.opcode]⟩
    · exact ⟨_, h, rfl, by simp [Instr.opcode]⟩
  exact ⟨hrange ▸ noCommandWritesOutsideItsRange i s t hwf hexec, exec_keeps_rk hop hexec,
    exec_keeps_build hexec, exec_keeps_pending hexec, fun hok => by simpa [hok] using exec_sticky hexec⟩

end Sys2Proof.Machine

/-! CBC (R150 to R152): the state an accepted command leaves, the decrypting loop after the encrypting one and the
other way round, and a range worked through in two commands. -/

namespace Sys2Proof.Machine

/-- R150, R170: CBC in the build, a chaining value, whole blocks and a range inside BUF are all a CBC command asks
for. -/
theorem cbcChecks_pass {s : State} {ptr len : BitVec 32} (hcbc : s.build.enCbc = true)
    (hphase : s.phase.hasChain = true) (hlen : len.toNat % 16 = 0)
    (hfits : ptr.toNat + len.toNat ≤ s.build.bufSize) : firstFailure (cbcChecks ptr len s) = none :=
  firstFailure_eq_none.2 ⟨hcbc, hphase, decide_eq_true hlen, Range.fits_iff.2 hfits⟩

theorem exec_cbcEnc_accepted {s : State} {ptr len : BitVec 32} {rk : List Byte} {cv : Block}
    (hc : firstFailure (cbcChecks ptr len s) = none) (hrk : s.rk = some rk) (hcv : s.cv = some cv) :
    let l := cbcEncLoop (cipher s.build.keyLen.nr rk) ptr.toNat (len.toNat / 16) ⟨cv, s.buf⟩
    exec (.cbcEnc ptr len) s = .next ((s.streamed l.cv l.mem).setErr .ok) :=
  exec_of_passes hc (runOf_cbcEnc.2 ⟨rk, hrk, cv, hcv, _, rfl, rfl⟩)

theorem exec_cbcDec_accepted {s : State} {ptr len : BitVec 32} {rk : List Byte} {cv : Block}
    (hc : firstFailure (cbcChecks ptr len s) = none) (hrk : s.rk = some rk) (hcv : s.cv = some cv) :
    let l := cbcDecLoop (invCipher s.build.keyLen.nr rk) ptr.toNat (len.toNat / 16) ⟨cv, s.buf⟩
    exec (.cbcDec ptr len) s = .next ((s.streamed l.cv l.mem).setErr .ok) :=
  exec_of_passes hc (runOf_cbcDec.2 ⟨rk, hrk, cv, hcv, _, rfl, rfl⟩)

/-- The last of `n / 16` blocks ends with the range. -/
theorem lastBlock_eq {n : Nat} (h : n % 16 = 0) (p : Nat) (cv : Block) (m : Memory) :
    (if n / 16 = 0 then cv else m.readBlock (p + 16 * (n / 16 - 1))) =
      if n = 0 then cv else m.readBlock (p + n - 16) := by
  by_cases hn : n = 0
  · simp [hn]
  · rw [if_neg (by omega), if_neg hn, show p + 16 * (n / 16 - 1) = p + n - 16 by omega]

/-- Settles O34: what the encrypting loop computes, and the frame of its blocks. -/
theorem cbcEncChainsTheCiphertext : Obligations.CbcEncChainsTheCiphertext := by
  intro s ptr len rk cv hcbc hphase hrk hcv hwf hlen hfits
  have hc := cbcChecks_pass hcbc (Phase.hasChain_iff.2 hphase) hlen hfits
  obtain ⟨hblocks, hlast⟩ :=
    cbcEncLoop_spec (cipher s.build.keyLen.nr rk) ptr.toNat cv hwf (len.toNat / 16)
  have hloop := cbcEncLoop_worked (cipher s.build.keyLen.nr rk) 0 ptr.toNat (len.toNat / 16) ⟨cv, s.buf⟩ hwf
  exact ⟨_, _, exec_cbcEnc_accepted hc hrk hcv, hblocks, hlast.trans (lastBlock_eq hlen _ _ _),
    hloop.sameOutside (Nat.mul_div_le _ _)⟩

/-- Settles O35: what the decrypting loop computes, and the frame of its blocks. -/
theorem cbcDecChainsTheSavedCiphertext : Obligations.CbcDecChainsTheSavedCiphertext := by
  intro s ptr len rk cv hcbc hphase hrk hcv hwf hlen hfits
  have hc := cbcChecks_pass hcbc (Phase.hasChain_iff.2 hphase) hlen hfits
  obtain ⟨hblocks, hlast⟩ :=
    cbcDecLoop_spec (invCipher s.build.keyLen.nr rk) ptr.toNat cv hwf (len.toNat / 16)
  have hloop :=
    cbcDecLoop_worked (invCipher s.build.keyLen.nr rk) 0 ptr.toNat (len.toNat / 16) ⟨cv, s.buf⟩ hwf
  exact ⟨_, _, exec_cbcDec_accepted hc hrk hcv, hblocks, hlast.trans (lastBlock_eq hlen _ _ _),
    hloop.sameOutside (Nat.mul_div_le _ _)⟩

/-- R41, R42: canonical memories with the same `n` blocks from `p` on that read alike around them are the same
list. -/
theorem Memory.ext_of_readBlocks {m m' : Memory} (hm : m.wf = true) (hm' : m'.wf = true) {p n : Nat}
    (hblock : ∀ j, j < n → m.readBlock (p + 16 * j) = m'.readBlock (p + 16 * j))
    (hout : ∀ a, a < p ∨ p + 16 * n ≤ a → m.read a = m'.read a) : m = m' := by
  refine Memory.ext hm hm' fun a => ?_
  by_cases ha : a < p ∨ p + 16 * n ≤ a
  · exact hout a ha
  · have hk : (a - p) % 16 < 16 := Nat.mod_lt _ (by decide)
    have hsplit : a = p + 16 * ((a - p) / 16) + (a - p) % 16 := by omega
    rw [hsplit, ← Memory.byte_readBlock m _ hk, ← Memory.byte_readBlock m' _ hk,
      hblock _ (by omega)]

/-- Two loops over the same range leave BUF around it as the first one found it. -/
theorem Worked.trans {b b' p n : Nat} {m0 m1 m2 : Memory} (h : Worked b p n m0 m1)
    (h' : Worked b' p n m1 m2) : ∀ a, a < p ∨ p + n ≤ a → m2.read a = m0.read a :=
  fun a ha => (h'.out a ha).trans (h.out a ha)

section
variable {f g : Block → Block} {m : Memory} (hm : m.wf = true) (p n : Nat)
include hm

/-- R152: decrypting what was encrypted from chaining value `iv`, starting from any `cv`: the first block is
left XORed with `cv` and `iv`, every other one comes back. -/
theorem readBlock_cbcDecLoop_cbcEncLoop (hgf : ∀ b, g (f b) = b) (iv cv : Block) {j : Nat} (hj : j < n) :
    (cbcDecLoop g p n ⟨cv, (cbcEncLoop f p n ⟨iv, m⟩).mem⟩).mem.readBlock (p + 16 * j) =
      if j = 0 then (m.readBlock p).xor (cv.xor iv) else m.readBlock (p + 16 * j) := by
  have henc := (cbcEncLoop_spec f p iv hm n).1 j hj
  have hdec := (cbcDecLoop_spec g p cv (cbcEncLoop_worked f 0 p n ⟨iv, m⟩ hm).wf n).1 j hj
  rw [hdec, henc, hgf]
  by_cases h0 : j = 0
  · simp only [h0, if_true, Nat.mul_zero, Nat.add_zero]
    rw [Block.xor_assoc, Block.xor_comm iv]
  · simp only [h0, if_false, Block.xor_xor_cancel]

/-- R152 (1): CBC_DEC's loop takes CBC_ENC's back. -/
theorem cbcDecLoop_cbcEncLoop (hgf : ∀ b, g (f b) = b) (iv : Block) :
    (cbcDecLoop g p n ⟨iv, (cbcEncLoop f p n ⟨iv, m⟩).mem⟩).mem = m := by
  have henc := cbcEncLoop_worked f 0 p n ⟨iv, m⟩ hm
  have hdec := cbcDecLoop_worked g 0 p n ⟨iv, _⟩ henc.wf
  refine Memory.ext_of_readBlocks hdec.wf hm (fun j hj => ?_) (henc.trans hdec)
  rw [readBlock_cbcDecLoop_cbcEncLoop hm p n hgf iv iv hj]
  by_cases h0 : j = 0
  · subst h0
    simp [← Block.xor_assoc]
  · rw [if_neg h0]

/-- R152 (1): CBC_ENC's loop takes CBC_DEC's back, block after block: the ciphertext it chains with is the one
that stood there. -/
theorem cbcEncLoop_cbcDecLoop (hfg : ∀ b, f (g b) = b) (iv : Block) :
    (cbcEncLoop f p n ⟨iv, (cbcDecLoop g p n ⟨iv, m⟩).mem⟩).mem = m := by
  have hdec := cbcDecLoop_worked g 0 p n ⟨iv, m⟩ hm
  have henc := cbcEncLoop_worked f 0 p n ⟨iv, _⟩ hdec.wf
  have hdecBlock := (cbcDecLoop_spec g p iv hm n).1
  have hencBlock := (cbcEncLoop_spec f p iv hdec.wf n).1
  refine Memory.ext_of_readBlocks henc.wf hm (fun j hj => ?_) (hdec.trans henc)
  induction j with
  | zero => rw [hencBlock 0 hj, hdecBlock 0 hj, if_pos rfl, if_pos rfl, Block.xor_xor_cancel, hfg]
  | succ j ih =>
    rw [hencBlock _ hj, hdecBlock _ hj, if_neg j.succ_ne_zero, if_neg j.succ_ne_zero, Nat.add_sub_cancel,
      ih (Nat.lt_of_succ_lt hj), Block.xor_xor_cancel, hfg]

end

/-- Settles O36: SET_IV puts back the chaining value, with which each loop takes the other one back. -/
theorem cbcRoundTripRestoresTheBuffer : Obligations.CbcRoundTripRestoresTheBuffer := by
  intro s ptr len iv hi hcbc hcv hlen hfits
  have hchain := hi.hasChain_of_cv hcv
  obtain ⟨rk, hrk⟩ := hi.exists_rk hchain
  have hset (cv : Block) (m : Memory) : exec (.setIv iv) ((s.streamed cv m).setErr .ok) =
      .next ((((s.streamed cv m).setErr .ok).loadIv iv).setErr .ok) :=
    setIvReplacesTheChain _ iv (.inl hcbc) (by simp)
  have hpass := cbcChecks_pass hcbc hchain hlen hfits
  have hpass' (cv : Block) (m : Memory) : firstFailure (cbcChecks ptr len
      ((((s.streamed cv m).setErr .ok).loadIv iv).setErr .ok)) = none :=
    cbcChecks_pass hcbc rfl hlen hfits
  exact ⟨⟨_, _, _, exec_cbcEnc_accepted hpass hrk hcv, hset _ _, exec_cbcDec_accepted (hpass' _ _) hrk rfl,
      cbcDecLoop_cbcEncLoop hi.buf_wf _ _ (invCipher_cipher _ rk) iv⟩,
    ⟨_, _, _, exec_cbcDec_accepted hpass hrk hcv, hset _ _, exec_cbcEnc_accepted (hpass' _ _) hrk rfl,
      cbcEncLoop_cbcDecLoop hi.buf_wf _ _ (cipher_invCipher _ rk) iv⟩⟩

/-- R152 (2): block `m + k` of a range is block `k` of the range that starts `m` blocks later. -/
theorem cbcEncLoop_add (f : Block → Block) (p m n : Nat) (t : CbcLoop) :
    cbcEncLoop f p (m + n) t = cbcEncLoop f (p + 16 * m) n (cbcEncLoop f p m t) :=
  forUp_split (fun k u => by simp only [cbcEncBlock, Nat.mul_add, Nat.add_assoc]) t

theorem cbcDecLoop_add (g : Block → Block) (p m n : Nat) (t : CbcLoop) :
    cbcDecLoop g p (m + n) t = cbcDecLoop g (p + 16 * m) n (cbcDecLoop g p m t) :=
  forUp_split (fun k u => by simp only [cbcDecBlock, Nat.mul_add, Nat.add_assoc]) t

/-- Settles O37: the second command goes on with the CV and the BUF the first one left, as the one loop does. -/
theorem cbcStreamsAcrossCommands : Obligations.CbcStreamsAcrossCommands := by
  intro s ptr mid a b len hi hcbc hchain ha hb hmid hlen hfits
  obtain ⟨rk, hrk⟩ := hi.exists_rk hchain
  obtain ⟨cv, hcv⟩ := hi.exists_cv hchain
  have hfirst := cbcChecks_pass (ptr := ptr) (len := a) hcbc hchain ha (by omega)
  have hsecond (c : Block) (m : Memory) :
      firstFailure (cbcChecks mid b ((s.streamed c m).setErr .ok)) = none :=
    cbcChecks_pass hcbc rfl hb (show _ ≤ s.build.bufSize by omega)
  have hwhole := cbcChecks_pass hcbc hchain (show len.toNat % 16 = 0 by omega) hfits
  have hblocks : len.toNat / 16 = a.toNat / 16 + b.toNat / 16 := by omega
  have hstart : mid.toNat = ptr.toNat + 16 * (a.toNat / 16) := by omega
  refine ⟨⟨_, _, exec_cbcEnc_accepted hfirst hrk hcv, exec_cbcEnc_accepted (hsecond _ _) hrk rfl, ?_⟩,
    ⟨_, _, exec_cbcDec_accepted hfirst hrk hcv, exec_cbcDec_accepted (hsecond _ _) hrk rfl, ?_⟩⟩
  · rw [exec_cbcEnc_accepted hwhole hrk hcv, hblocks, cbcEncLoop_add, hstart]
    rfl
  · rw [exec_cbcDec_accepted hwhole hrk hcv, hblocks, cbcDecLoop_add, hstart]
    rfl

/-- Settles O38: CBC_DEC starts from the last ciphertext block instead of the iv, which only the first block is
XORed with. -/
theorem cbcDecWithoutSetIvGarblesOnlyTheFirstBlock :
    Obligations.CbcDecWithoutSetIvGarblesOnlyTheFirstBlock := by
  intro s ptr len iv hi hcbc hcv hlen hpos hfits
  have hchain := hi.hasChain_of_cv hcv
  obtain ⟨rk, hrk⟩ := hi.exists_rk hchain
  have hsecond (c : Block) (m : Memory) :
      firstFailure (cbcChecks ptr len ((s.streamed c m).setErr .ok)) = none :=
    cbcChecks_pass hcbc rfl hlen hfits
  have hblock (cv : Block) {j : Nat} (hj : j < len.toNat / 16) :=
    readBlock_cbcDecLoop_cbcEncLoop hi.buf_wf ptr.toNat (len.toNat / 16)
      (invCipher_cipher s.build.keyLen.nr rk) iv cv hj
  exact ⟨_, _, _, exec_cbcEnc_accepted (cbcChecks_pass hcbc hchain hlen hfits) hrk hcv,
    exec_cbcDec_accepted (hsecond _ _) hrk rfl, rfl, hblock _ (j := 0) (by omega),
    fun j h1 hj => (hblock _ hj).trans (if_neg (by omega))⟩

end Sys2Proof.Machine

/-! CTR (R160 to R164): the state an accepted command leaves, the keystream taken back by itself, and a range worked
through in two commands. -/

namespace Sys2Proof.Machine

/-- R160, R170: CTR in the build, a chaining value and a range inside BUF are all CTR_XCRYPT asks for. -/
theorem ctrChecks_pass {s : State} {ptr len : BitVec 32} (hctr : s.build.enCtr = true)
    (hphase : s.phase.hasChain = true) (hfits : ptr.toNat + len.toNat ≤ s.build.bufSize) :
    firstFailure (ctrChecks ptr len s) = none :=
  firstFailure_eq_none.2 ⟨hctr, hphase, rfl, Range.fits_iff.2 hfits⟩

theorem exec_ctrXcrypt_accepted {s : State} {ptr len : BitVec 32} {rk : List Byte} {cv : Block}
    (hc : firstFailure (ctrChecks ptr len s) = none) (hrk : s.rk = some rk) (hcv : s.cv = some cv) :
    let l := ctrLoop (cipher s.build.keyLen.nr rk) ptr.toNat len.toNat (ctrStart cv s.buf)
    exec (.ctrXcrypt ptr len) s = .next ((s.streamed l.cv l.mem).setErr .ok) :=
  exec_of_passes hc (runOf_ctrXcrypt.2 ⟨rk, hrk, cv, hcv, _, rfl, rfl⟩)

section
variable (f : Block → Block) (p : Nat) (cv : Block) {m : Memory} (hm : m.wf = true) (n : Nat)
include hm

/-- R160: the keystream byte of each place of the range. -/
theorem read_ctrLoop {i : Nat} (hi : i < n) : (ctrLoop f p n (ctrStart cv m)).mem.read (p + i) =
    m.read (p + i) ^^^ (f (ctrInc^[i / 16] cv)).byte (i % 16) :=
  (ctrLoop_spec f p cv hm n).1 i hi

/-- R160, R161: one increment for each block of keystream begun. -/
theorem cv_ctrLoop : (ctrLoop f p n (ctrStart cv m)).cv = ctrInc^[(n + 15) / 16] cv :=
  (ctrLoop_spec f p cv hm n).2.1

/-- R162: after whole blocks the keystream buffer is used up, as it is at the start of a command. -/
theorem bi_ctrLoop (hn : n % 16 = 0) : (ctrLoop f p n (ctrStart cv m)).bi = 16 :=
  (ctrLoop_spec f p cv hm n).2.2.2.trans (if_pos hn)

/-- R163: the same keystream a second time takes itself back. -/
theorem ctrLoop_ctrLoop :
    (ctrLoop f p n (ctrStart cv (ctrLoop f p n (ctrStart cv m)).mem)).mem = m := by
  have hfirst := ctrLoop_worked f 0 p n (ctrStart cv m) hm
  have hsecond := ctrLoop_worked f 0 p n (ctrStart cv _) hfirst.wf
  refine Memory.ext hsecond.wf hm fun a => ?_
  by_cases ha : a < p ∨ p + n ≤ a
  · exact hfirst.trans hsecond a ha
  · obtain ⟨i, rfl⟩ := Nat.exists_eq_add_of_le (show p ≤ a by omega)
    have hi : i < n := by omega
    rw [read_ctrLoop f p cv hfirst.wf n hi, read_ctrLoop f p cv hm n hi, BitVec.xor_assoc, BitVec.xor_self,
      BitVec.xor_zero]

end

/-- Settles O40: what the loop computes, with the counter read as a number, and the frame of its bytes. -/
theorem ctrXcryptXorsTheKeystream : Obligations.CtrXcryptXorsTheKeystream := by
  intro s ptr len rk cv hctr hphase hrk hcv hwf hfits
  have hc := ctrChecks_pass hctr (Phase.hasChain_iff.2 hphase) hfits
  have hloop := ctrLoop_worked (cipher s.build.keyLen.nr rk) 0 ptr.toNat len.toNat (ctrStart cv s.buf) hwf
  refine ⟨_, _, exec_ctrXcrypt_accepted hc hrk hcv, fun i hi => ?_, ?_, hloop.sameOutside le_rfl⟩
  · exact ⟨_, counterValue_iterate_ctrInc cv (i / 16), read_ctrLoop _ _ cv hwf _ hi⟩
  · rw [cv_ctrLoop _ _ cv hwf, counterValue_iterate_ctrInc]

/-- Settles O42: SET_IV puts back the counter, with which the loop takes itself back. -/
theorem ctrTwiceRestoresTheBuffer : Obligations.CtrTwiceRestoresTheBuffer := by
  intro s ptr len c hi hctr hcv hfits
  have hchain := hi.hasChain_of_cv hcv
  obtain ⟨rk, hrk⟩ := hi.exists_rk hchain
  exact ⟨_, _, _, exec_ctrXcrypt_accepted (ctrChecks_pass hctr hchain hfits) hrk hcv,
    setIvReplacesTheChain _ c (.inr hctr) (by simp),
    exec_ctrXcrypt_accepted (ctrChecks_pass hctr rfl hfits) hrk rfl,
    ctrLoop_ctrLoop _ _ c hi.buf_wf _⟩

theorem ctrLoop_add (f : Block → Block) (p m n : Nat) (t : CtrLoop) :
    ctrLoop f p (m + n) t = ctrLoop f (p + m) n (ctrLoop f p m t) :=
  forUp_split (fun k u => by simp only [ctrByte, Nat.add_assoc]) t

/-- R162: a used-up keystream buffer is refilled before it is read, so its old contents play no part. -/
theorem ctrRefill_eq_ctrStart {f : Block → Block} {t : CtrLoop} (h : t.bi = 16) :
    ctrRefill f t = ctrRefill f (ctrStart t.cv t.mem) := by
  rw [ctrRefill, if_pos h]
  rfl

/-- R162: from a used-up keystream buffer the loop leaves the CV and the BUF it leaves as a command of its own. -/
theorem ctrLoop_eq_ctrStart {f : Block → Block} {t : CtrLoop} (h : t.bi = 16) (p n : Nat) :
    (ctrLoop f p n t).cv = (ctrLoop f p n (ctrStart t.cv t.mem)).cv ∧
    (ctrLoop f p n t).mem = (ctrLoop f p n (ctrStart t.cv t.mem)).mem := by
  cases n with
  | zero => exact ⟨rfl, rfl⟩
  | succ n =>
    have hbyte : ctrLoop f p 1 t = ctrLoop f p 1 (ctrStart t.cv t.mem) :=
      congrArg (ctrXorByte p) (ctrRefill_eq_ctrStart h)
    rw [Nat.add_comm, ctrLoop_add, ctrLoop_add, hbyte]
    exact ⟨rfl, rfl⟩

/-- Settles O43: after whole blocks the one loop goes on as a command of its own would. -/
theorem ctrSplitsAtWholeBlocks : Obligations.CtrSplitsAtWholeBlocks := by
  intro s ptr mid a b len hi hctr hchain ha hmid hlen hfits
  obtain ⟨rk, hrk⟩ := hi.exists_rk hchain
  obtain ⟨cv, hcv⟩ := hi.exists_cv hchain
  have hsecond (c : Block) (m : Memory) :
      firstFailure (ctrChecks mid b ((s.streamed c m).setErr .ok)) = none :=
    ctrChecks_pass hctr rfl (show _ ≤ s.build.bufSize by omega)
  refine ⟨_, _, exec_ctrXcrypt_accepted (ctrChecks_pass hctr hchain (by omega)) hrk hcv,
    exec_ctrXcrypt_accepted (hsecond _ _) hrk rfl, ?_⟩
  obtain ⟨hcvs, hmems⟩ := ctrLoop_eq_ctrStart (f := cipher s.build.keyLen.nr rk)
    (bi_ctrLoop _ ptr.toNat cv hi.buf_wf _ ha) (ptr.toNat + a.toNat) b.toNat
  rw [exec_ctrXcrypt_accepted (ctrChecks_pass hctr hchain hfits) hrk hcv, hlen, ctrLoop_add, hcvs, hmems,
    hmid]
  rfl

/-- R161: increments counted together, modulo 2^128. -/
theorem counterValue_iterate_iterate (cv : Block) (m n : Nat) :
    counterValue (ctrInc^[n] (ctrInc^[m] cv)) = (counterValue cv + m + n) % 2 ^ 128 := by
  rw [← Function.iterate_add_apply, counterValue_iterate_ctrInc, Nat.add_comm n, Nat.add_assoc]

/-- Settles O44: the second command's loop starts from the counter the first one left, and finds the bytes of its
own range untouched. -/
theorem ctrSplitRestartsTheKeystream : Obligations.CtrSplitRestartsTheKeystream := by
  intro s ptr mid a b rk cv hctr hphase hrk hcv hwf hmid hfits
  have hfirst := ctrChecks_pass (ptr := ptr) (len := a) hctr (Phase.hasChain_iff.2 hphase) (by omega)
  have hsecond (c : Block) (m : Memory) :
      firstFailure (ctrChecks mid b ((s.streamed c m).setErr .ok)) = none := ctrChecks_pass hctr rfl hfits
  have hworked :=
    ctrLoop_worked (cipher s.build.keyLen.nr rk) 0 ptr.toNat a.toNat (ctrStart cv s.buf) hwf
  have hcounter := cv_ctrLoop (cipher s.build.keyLen.nr rk) ptr.toNat cv hwf a.toNat
  refine ⟨_, _, _, exec_ctrXcrypt_accepted hfirst hrk hcv, exec_ctrXcrypt_accepted (hsecond _ _) hrk rfl, rfl,
    ?_, fun i hi => ⟨_, counterValue_iterate_iterate cv _ _, (read_ctrLoop _ _ _ hworked.wf _ hi).trans ?_⟩⟩
  · exact (congrArg counterValue (cv_ctrLoop _ _ _ hworked.wf _)).trans
      (hcounter ▸ counterValue_iterate_iterate cv _ _)
  · rw [hworked.out _ (by omega), hcounter]
    rfl

end Sys2Proof.Machine
